-- ==== Sys2Proof/Word.lean ====
section
/-! DEFINITION. The words, lines, durations and trace events every other file speaks of (00_scope.md R7, R8, R11;
10_state.md R22, R25; 40_bus_framing.md R84). All values are unsigned (R9). -/

namespace Sys2Proof

/-- A command word: 32 bits (R7, R60). -/
abbrev Word := BitVec 32

/-- A byte: a data byte on the bus, an error value, a checksum (R7). -/
abbrev Byte := BitVec 8

/-- The eight commands of the opcode map (R63), as the names a `NotInitialized` fault records (R162). -/
inductive Mnemonic where
  | init | start | stop | wrb | rdb | gcr | crc8 | chk
  deriving DecidableEq, Repr

/-- The two lines of the bus (R2, R7). -/
inductive Line where
  | sda | scl
  deriving DecidableEq, Repr

/-- What the block does to a line (R11, R22): not yet configured, pulled low, released. -/
inductive Drive where
  | unconf | low | rel
  deriving DecidableEq, Repr

/-- The drive states of both lines: `drv.SDA` and `drv.SCL` of R20. -/
structure Drv where
  sda : Drive
  scl : Drive
  deriving DecidableEq, Repr

/-- The six duration parameters of R5. A `WAIT` event carries the parameter's name, never a number. -/
inductive Duration where
  | startSetup | startHold | dataSetup | clockHigh | dataHold | stopSetup
  deriving DecidableEq, Repr

/-- The trace events of R25: `LOW(L)`, `REL(L)`, `WAIT(P)`, `SMP(v)` (`true` is level 1). -/
inductive Event where
  | low (l : Line)
  | rel (l : Line)
  | wait (p : Duration)
  | smp (v : Bool)
  deriving DecidableEq, Repr

/-- Repeatability of a measurement command (R12, R148). -/
inductive Repeatability where
  | low | medium | high
  deriving DecidableEq, Repr

/-- Rate of a periodic measurement command: 0.5, 1, 2, 4 or 10 Hz (R148). -/
inductive PeriodicRate where
  | hz05 | hz1 | hz2 | hz4 | hz10
  deriving DecidableEq, Repr

/-- The sensor commands the document names (R148): the index of the `CMD_*` parameter table of R5. -/
inductive SensorCommand where
  | readSerialNbr | readStatus | clearStatus
  | measSingle (r : Repeatability)
  | measPeriodic (f : PeriodicRate) (r : Repeatability)
  | fetchData | breakPeriodic | softReset | heaterEnable | heaterDisable
  deriving DecidableEq, Repr

end Sys2Proof
end

