-- ==== Sys2Proof/Machine/Operands.lean ====
section
/-! DEFINITION. Operand forms: the fields of a command word (R61, R62), the bits of a byte in wire order (R8, R44), the
address byte (R41) and the concatenation of two bytes (R9, R45). -/

namespace Sys2Proof.Machine

/-- `OP = w[31:28]` (R61). -/
def opField (w : Word) : BitVec 4 := w.extractLsb' 28 4

/-- `Z = w[27:25]` (R61). -/
def zField (w : Word) : BitVec 3 := w.extractLsb' 25 3

/-- `A = w[24]`, read as a Boolean (R61, R62). -/
def aField (w : Word) : Bool := w.getLsbD 24

/-- `D2 = w[23:16]` (R61). -/
def d2Field (w : Word) : Byte := w.extractLsb' 16 8

/-- `D1 = w[15:8]` (R61). -/
def d1Field (w : Word) : Byte := w.extractLsb' 8 8

/-- `D0 = w[7:0]` (R61). -/
def d0Field (w : Word) : Byte := w.extractLsb' 0 8

/-- A byte's bits in wire order, most significant first (R8, R44). -/
def bitsMSB (v : Byte) : List Bool :=
  [v.getLsbD 7, v.getLsbD 6, v.getLsbD 5, v.getLsbD 4, v.getLsbD 3, v.getLsbD 2, v.getLsbD 1, v.getLsbD 0]

/-- `x[i] <- b` for a byte (R10): the assignment `RDB` receives each bit with (R101). -/
def setBit (x : Byte) (i : Nat) (b : Bool) : Byte :=
  (x &&& ~~~((1 : Byte) <<< i)) ||| ((if b then (1 : Byte) else 0) <<< i)

/-- `addrByte(a, rw) = (zext_8(a) << 1) | rw` (R41); `rw` is true for the read direction. -/
def addrByte (a : BitVec 7) (rw : Bool) : Byte :=
  (a.setWidth 8 <<< 1) ||| (if rw then 1 else 0)

/-- `a ++ b = (zext_16(a) << 8) | zext_16(b)` (R9): a 16-bit word, high byte first (R45). -/
def wordOf (hi lo : Byte) : BitVec 16 := (hi.setWidth 16 <<< 8) ||| lo.setWidth 16

/-- `k[15:8]` (R143). -/
def highByte (k : BitVec 16) : Byte := k.extractLsb' 8 8

/-- `k[7:0]` (R143). -/
def lowByte (k : BitVec 16) : Byte := k.extractLsb' 0 8

/-- The general-call address byte (R43, R104). -/
def generalCallAddress : Byte := 0x00

/-- The byte that, after the general-call address, asks every device to reset (R43, R104). -/
def generalCallReset : Byte := 0x06

/-- A mnemonic's number in the opcode map, `w[31:28]` (R63). -/
def opNumber : Mnemonic → BitVec 4
  | .init => 0x1
  | .start => 0x2
  | .stop => 0x3
  | .wrb => 0x4
  | .rdb => 0x5
  | .gcr => 0x6
  | .crc8 => 0x7
  | .chk => 0x8

end Sys2Proof.Machine
end

