-- ==== Sys2Proof/Syntax.lean ====
section
/-! DEFINITION. The commands of the block: one constructor per row of spec/opcode_table.json (R63). Every operand has
exactly the width of its field (R61, R62), so every term of the type is a command the encoding can carry. -/

namespace Sys2Proof

/-- A command of the block, with the operands of its row in R63. -/
inductive Instr where
  /-- `INIT` (R85) -/
  | init
  /-- `START` (R86) -/
  | start
  /-- `STOP` (R87) -/
  | stop
  /-- `WRB v` (R100): `v` is `w[7:0]` -/
  | wrb (v : Byte)
  /-- `RDB ack` (R101): `ack` is `w[24]`, true for `RDB ACK` -/
  | rdb (ack : Bool)
  /-- `GCR` (R104) -/
  | gcr
  /-- `CRC8 b0, b1` (R121): `w[23:16]` and `w[15:8]` -/
  | crc8 (b0 b1 : Byte)
  /-- `CHK b0, b1, c` (R122): `w[23:16]`, `w[15:8]` and `w[7:0]` -/
  | chk (b0 b1 c : Byte)
  deriving DecidableEq, Repr

end Sys2Proof
end

