-- ==== Sys2Proof/Decode.lean ====
section
/-! DEFINITION. The decoder (R63, R65) and the encoder (R61, R63). A command is one 32-bit word; there is no other length
(R60, R67) and no byte order, because the host hands the word over whole (R21). -/

namespace Sys2Proof

open Machine

/-- A row of the opcode map (R63): `w` selects it iff `(w & mask) = code`. -/
structure OpRow where
  op : Mnemonic
  code : Word
  mask : Word
  deriving DecidableEq, Repr

/-- The opcode map, match and mask as R63 prints them. -/
def opcodeMap : List OpRow :=
  [ ⟨.init,  0x10000000, 0xFFFFFFFF⟩,
    ⟨.start, 0x20000000, 0xFFFFFFFF⟩,
    ⟨.stop,  0x30000000, 0xFFFFFFFF⟩,
    ⟨.wrb,   0x40000000, 0xFFFFFF00⟩,
    ⟨.rdb,   0x50000000, 0xFEFFFFFF⟩,
    ⟨.gcr,   0x60000000, 0xFFFFFFFF⟩,
    ⟨.crc8,  0x70000000, 0xFF0000FF⟩,
    ⟨.chk,   0x80000000, 0xFF000000⟩ ]

/-- Whether a word selects a row (R63). -/
def selects (w : Word) (r : OpRow) : Bool := (w &&& r.mask) == r.code

/-- A command with the fields of its word (R61, R62). -/
def instrOf (m : Mnemonic) (w : Word) : Instr :=
  match m with
  | .init => .init
  | .start => .start
  | .stop => .stop
  | .wrb => .wrb (d0Field w)
  | .rdb => .rdb (aField w)
  | .gcr => .gcr
  | .crc8 => .crc8 (d2Field w) (d1Field w)
  | .chk => .chk (d2Field w) (d1Field w) (d0Field w)

/-- `decode(w)` (R65), total on every word; `none` is `Illegal`. -/
def decode (w : Word) : Option Instr :=
  (opcodeMap.find? (selects w)).map fun r => instrOf r.op w

/-- The decoder over a table row's bits: a row has 32 bits, bit 0 the word's least significant. -/
def decodeTableWord (nbits w : Nat) : Option Instr := decode (BitVec.ofNat 32 (w % 2 ^ nbits))

/-- The command word of a command (R61, R63), as R68 writes it. -/
def encode : Instr → Word
  | .init => 0x10000000
  | .start => 0x20000000
  | .stop => 0x30000000
  | .wrb v => 0x40000000 ||| v.setWidth 32
  | .rdb ack => if ack then 0x51000000 else 0x50000000
  | .gcr => 0x60000000
  | .crc8 b0 b1 => 0x70000000 ||| (b0.setWidth 32 <<< 16) ||| (b1.setWidth 32 <<< 8)
  | .chk b0 b1 c => 0x80000000 ||| (b0.setWidth 32 <<< 16) ||| (b1.setWidth 32 <<< 8) ||| c.setWidth 32

/-- The row of the opcode map a command belongs to. -/
def mnemonicOf : Instr → Mnemonic
  | .init => .init
  | .start => .start
  | .stop => .stop
  | .wrb _ => .wrb
  | .rdb _ => .rdb
  | .gcr => .gcr
  | .crc8 _ _ => .crc8
  | .chk _ _ _ => .chk

end Sys2Proof
end

