-- ==== Sys2Proof/Machine/Flags.lean ====
section
/-! DEFINITION. The error values (R29, R30, R146). The block has no condition codes and keeps no flag between commands
(R34); its only flag computations are the error values its responses carry. -/

namespace Sys2Proof.Machine

/-- No error: "the all-zero value" (R29, R30). -/
def errOk : Byte := 0x00

/-- AcknowledgeMissing, bit 0 (R29, R30). -/
def errAckMissing : Byte := 0x01

/-- ChecksumMismatch, bit 1 (R30). -/
def errChecksum : Byte := 0x02

/-- Timeout, bit 2 (R30). No command of the block returns it (R161). -/
def errTimeout : Byte := 0x04

/-- `merge(a, b) = a | b` (R30, R146). -/
def mergeErr (a b : Byte) : Byte := a ||| b

/-- `isOk(e) = (e = 0x00)` (R30). -/
def isOk (e : Byte) : Bool := e == errOk

/-- The BusError of a sampled acknowledge level (R100): SDA high at the ninth clock is AcknowledgeMissing. -/
def busErrorOf (a : Bool) : Byte := if a then errAckMissing else errOk

/-- The OperationError of a checksum comparison (R122). -/
def checkErrorOf (computed received : Byte) : Byte := if computed = received then errOk else errChecksum

end Sys2Proof.Machine
end

