-- ==== Sys2Proof/Config.lean ====
section
/-! DEFINITION. What the target fixes and what the spec leaves free. Every constant here is opaque and has no body: a
theorem about the model holds whatever the parameter's value or the environment's answer is (R5, R26, R35, R144). -/

namespace Sys2Proof.Config

/-- `DEV_ADDR` (R5): the target device's 7-bit bus address. OPEN in the spec (D19). -/
opaque devAddr : BitVec 7

/-- The six timing parameters (R5), in whole microseconds. OPEN in the spec (D8); no meaning reads one (R192). -/
opaque duration : Duration → Nat

/-- The `CMD_*` table (R5, R148): the 16-bit value of each sensor command. OPEN in the spec (D20). -/
opaque cmdValue : SensorCommand → BitVec 16

/-- FREE VALUE (R26): the bus environment's draw at a `Sample()`, as a function of the trace so far; `true` (1) means the
environment leaves SDA released. It obeys no law. -/
opaque envSDA : List Event → Bool

/-- FREE VALUE (R144, D21): the 16-bit word `RDWC` hands the host on a checksum mismatch. Every `RDWC` appends 168 events,
so the trace it is applied to is another one at each mismatch. -/
opaque mismatchWord : List Event → BitVec 16

/-- FREE VALUE (R35, U6): the wire level of a line the block has not configured yet. No command observes it. -/
opaque unconfiguredLevel : Line → Bool

end Sys2Proof.Config
end

