-- ==== Sys2Proof/Machine/State.lean ====
section
/-! DEFINITION. The state of the block (R20), the state after reset (R35), and the reasons a step can stop. Three fields
are the model's own and not the block's: the host's pending command words, the responses the host has received, and the
environment's scripted answers (notes/assumptions 2, 3 and 5). -/

namespace Sys2Proof.Machine

/-- Transaction phase (R24): bookkeeping that no command reads. -/
inductive Phase where
  | uninit | idle | active
  deriving DecidableEq, Repr

/-- A command's response to the host (R28): `none`, `err(e)` or `byte(b)`. -/
inductive Response where
  | none
  | err (e : Byte)
  | byte (b : Byte)
  deriving DecidableEq, Repr

/-- The model faults of R162. A command that raises one records it in `State.fault` (a next state, as R162's `raise` says);
the machine then stops: every later step, and every later command, answers it as `Host.Outcome.fault` (R163). -/
inductive Fault where
  /-- Raised by `raiseIllegal`, which `step` calls on a word that does not decode; it records the word (R162). Safe: the
  spec gives such a word no other meaning (D3). -/
  | illegalCommand (w : Word)
  /-- Raised by every command but `INIT` while `init` is false; it records the mnemonic (R162). Safe: the spec gives the
  command no other meaning there (D15). -/
  | notInitialized (op : Mnemonic)
  /-- Raised by `INIT` while `init` is true (R162). Safe: the spec gives it no other meaning there (D16). -/
  | reInit
  deriving DecidableEq, Repr

/-- Refusals. No meaning answers with one: every command has its effect. -/
inductive Refusal where
  /-- Raised only by an arm of `exec` whose instruction has no meaning yet; there is no such arm. Safe. -/
  | notModelled (mnemonic : String)
  deriving DecidableEq, Repr

/-- The state. The first six fields are exactly the table of R20. -/
structure State where
  /-- `drv.SDA` and `drv.SCL` (R22) -/
  drv : Drv
  /-- `init` (R23) -/
  init : Bool
  /-- `phase` (R24) -/
  phase : Phase
  /-- `trace`, oldest event first (R25) -/
  trace : List Event
  /-- `fault` (R31) -/
  fault : Option Fault
  /-- MODEL'S OWN: the command words the host has presented and the block has not accepted yet, next one first (R21) -/
  cmds : List Word
  /-- MODEL'S OWN: the responses returned to the host, oldest first (R28); no command reads it -/
  responses : List Response
  /-- MODEL'S OWN: the environment's answers to the coming samples, next one first; past its end the draw is
  `Config.envSDA` of the trace (R26) -/
  envAnswers : List Bool
  deriving DecidableEq, Repr

/-- The state after reset (R35). The model's own fields are empty: the host has presented nothing and heard nothing, and
the environment is wholly free. -/
def State.reset : State where
  drv := ⟨.unconf, .unconf⟩
  init := false
  phase := .uninit
  trace := []
  fault := none
  cmds := []
  responses := []
  envAnswers := []

end Sys2Proof.Machine
end

