-- ==== Sys2Proof/Machine/Ops.lean ====
section
/-! DEFINITION. The primitives every command is written in (R10, R80 to R84), the checks before a command's body (R162 to
R164), the raising of a model fault and the host's side of a step (R21, R28). The block has no memory and no registers
(R20, R40), so there is no memory operation; it has no trap (R160, R166), so raising a fault is the one operation that
stands where another machine enters a handler, and there is no return from it (R163). -/

namespace Sys2Proof.Machine

/-- What a command or a step answers. -/
abbrev Result := Host.Outcome State Fault Refusal

/-- A line's drive state: `drv.L` (R22). -/
def driveOf (d : Drv) : Line → Drive
  | .sda => d.sda
  | .scl => d.scl

/-- `drv.L <- x` (R10). -/
def withDrive (d : Drv) (l : Line) (x : Drive) : Drv :=
  match l with
  | .sda => { d with sda := x }
  | .scl => { d with scl := x }

/-- Appends one event to the trace (R25). -/
def append (e : Event) (s : State) : State := { s with trace := s.trace ++ [e] }

/-- `drv.L <- x`. -/
def setDrive (l : Line) (x : Drive) (s : State) : State := { s with drv := withDrive s.drv l x }

/-- `init <- true` (R85). -/
def setInit (s : State) : State := { s with init := true }

/-- `phase <- p` (R24). -/
def setPhase (p : Phase) (s : State) : State := { s with phase := p }

/-- `DriveLow(L)` (R80). -/
def driveLow (l : Line) (s : State) : State := append (.low l) (setDrive l .low s)

/-- `Release(L)` (R81). -/
def release (l : Line) (s : State) : State := append (.rel l) (setDrive l .rel s)

/-- `Wait(P)` (R82): the event alone; the model keeps no time. -/
def wait (p : Duration) (s : State) : State := append (.wait p) s

/-- The environment's draw at a sample (R26): the next scripted answer, and `envSDA(trace)` where none is scripted. -/
def envDraw (answers : List Bool) (trace : List Event) : Bool :=
  match answers with
  | a :: _ => a
  | [] => Config.envSDA trace

/-- One scripted answer is used up. -/
def dropAnswer (s : State) : State := { s with envAnswers := s.envAnswers.tail }

/-- `Sample()` (R83): the wired-AND of the block's own drive and the environment's draw on the trace before the event. -/
def sample (s : State) : Bool × State :=
  let e := envDraw s.envAnswers s.trace
  let v := if s.drv.sda = .rel then e else false
  (v, append (.smp v) (dropAnswer s))

/-- The first half of a pulse: set-up wait, clock released, high time (R84). -/
def pulseRise (s : State) : State := wait .clockHigh (release .scl (wait .dataSetup s))

/-- The second half of a pulse: clock pulled low, hold wait (R84). -/
def pulseFall (s : State) : State := wait .dataHold (driveLow .scl s)

/-- `Pulse(false)` (R84). -/
def pulse (s : State) : State := pulseFall (pulseRise s)

/-- `Pulse(true)` (R84): the sample is taken after the high time and before the clock falls. -/
def pulseSample (s : State) : Bool × State :=
  let r := sample (pulseRise s)
  (r.1, pulseFall r.2)

/-- `raise F(info)` (R162): records the fault; no primitive runs and nothing else changes. -/
def raise (f : Fault) (s : State) : State := { s with fault := some f }

/-- `return r` (R28): the response goes to the host. -/
def respond (r : Response) (s : State) : State := { s with responses := s.responses ++ [r] }

/-- A faulted block accepts no command and takes no step (R163). -/
def whenSound (s : State) (k : Result) : Result :=
  match s.fault with
  | some f => .fault f
  | none => k

/-- A command that needs `init` (R162, R164): the check, then the body, then its response. -/
def afterInit (op : Mnemonic) (body : State → Response × State) (s : State) : Result :=
  whenSound s <|
    if s.init then .next (respond (body s).1 (body s).2)
    else .next (raise (.notInitialized op) s)

/-- `INIT`'s check is the reverse one (R85, R162). -/
def beforeInit (body : State → Response × State) (s : State) : Result :=
  whenSound s <|
    if s.init then .next (raise .reInit s)
    else .next (respond (body s).1 (body s).2)

/-- A word that does not decode (R65, R162): no check of `init` comes before it (R164). -/
def raiseIllegal (w : Word) (s : State) : Result := whenSound s (.next (raise (.illegalCommand w) s))

/-- The word the block accepts next, and the state in which the host has handed it over (R21). -/
def takeCommand (s : State) : Option (Word × State) :=
  match s.cmds with
  | [] => none
  | w :: rest => some (w, { s with cmds := rest })

/-- A step in which the host presents nothing: it waits, and nothing changes (R171). -/
def idleStep (s : State) : Result := whenSound s (.next s)

/-- The host presents one word, to be accepted before those already pending. -/
def present (w : Word) (s : State) : State := { s with cmds := w :: s.cmds }

end Sys2Proof.Machine
end

