-- ==== Sys2Proof/Machine/Crc.lean ====
section
/-! DEFINITION. The CRC-8 validator: the function of R120, a table-driven form of it (R123), and the commands CRC8 and CHK
(R121, R122), which touch no line. -/

namespace Sys2Proof.Machine

/-- The 9-bit intermediate `t` of one iteration of R120. -/
def crcShift (c : Byte) : BitVec 9 :=
  let t := c.setWidth 9 <<< 1
  if c.getLsbD 7 then t ^^^ 0x131 else t

/-- One iteration of R120: `c <- t[7:0]`. -/
def crcStep (c : Byte) : Byte := (crcShift c).setWidth 8

/-- `n` iterations of R120. -/
def crcSteps : Nat → Byte → Byte
  | 0, c => c
  | n + 1, c => crcSteps n (crcStep c)

/-- One byte of R120: exclusive-or into the running value, then 8 iterations. -/
def crcByte (c d : Byte) : Byte := crcSteps 8 (c ^^^ d)

/-- `crc8` (R120): the initial value is `0xFF`; there is no final exclusive-or. -/
def crc8 (ds : List Byte) : Byte := ds.foldl crcByte 0xFF

/-- The 256-entry table of a table-driven validator (R123), built from the loop of R120. -/
def crcTable : List Byte := (List.range 256).map fun n => crcSteps 8 (BitVec.ofNat 8 n)

/-- The validator driven by the table (R123; 90_conflicts.md C5). -/
def crc8ByTable (ds : List Byte) : Byte := ds.foldl (fun c d => crcTable.getD (c ^^^ d).toNat 0) 0xFF

/-- `CRC8 b0, b1` (R121). -/
def execCrc8 (b0 b1 : Byte) (s : State) : Result := afterInit .crc8 (fun s => (.byte (crc8 [b0, b1]), s)) s

/-- `CHK b0, b1, c` (R122). -/
def execChk (b0 b1 c : Byte) (s : State) : Result :=
  afterInit .chk (fun s => (.err (checkErrorOf (crc8 [b0, b1]) c), s)) s

end Sys2Proof.Machine
end

