-- ==== Sys2Proof/Machine/Framing.lean ====
section
/-! DEFINITION. The framing commands INIT, START and STOP (40_bus_framing.md R85 to R87). -/

namespace Sys2Proof.Machine

/-- The body of `INIT` after its check (R85). -/
def initBody (s : State) : State := setPhase .idle (setInit (release .scl (release .sda s)))

/-- `INIT` (R85). -/
def execInit (s : State) : Result := beforeInit (fun s => (.none, initBody s)) s

/-- The body of `START` after its check (R86). -/
def startBody (s : State) : State :=
  let s := release .scl (release .sda s)
  let s := driveLow .sda (wait .startSetup s)
  let s := driveLow .scl (wait .startHold s)
  setPhase .active s

/-- `START` (R86). -/
def execStart (s : State) : Result := afterInit .start (fun s => (.none, startBody s)) s

/-- The body of `STOP` after its check (R87). -/
def stopBody (s : State) : State :=
  let s := release .scl (driveLow .sda (driveLow .scl s))
  let s := release .sda (wait .stopSetup s)
  setPhase .idle s

/-- `STOP` (R87). -/
def execStop (s : State) : Result := afterInit .stop (fun s => (.none, stopBody s)) s

end Sys2Proof.Machine
end

