-- ==== Sys2Proof/Machine/Transfer.lean ====
section
/-! DEFINITION. Byte transfer and the general call reset: WRB, RDB and GCR (41_byte_transfer.md R100, R101, R104). -/

namespace Sys2Proof.Machine

/-- "'write 1' means release, 'write 0' means drive low" (R11, R12). -/
def writeLevel (b : Bool) (s : State) : State := if b then release .sda s else driveLow .sda s

/-- The loop of `WRB` over bits `n-1` down to 0 (R100). -/
def sendBits : Nat → Byte → State → State
  | 0, _, s => s
  | n + 1, v, s => sendBits n v (pulse (writeLevel (v.getLsbD n) s))

/-- The body of `WRB v` after its check (R100): the sampled acknowledge level and the state. -/
def sendByte (v : Byte) (s : State) : Bool × State := pulseSample (release .sda (sendBits 8 v s))

/-- `WRB v` (R100). -/
def execWrb (v : Byte) (s : State) : Result :=
  afterInit .wrb (fun s => (.err (busErrorOf (sendByte v s).1), (sendByte v s).2)) s

/-- The loop of `RDB` over bits `n-1` down to 0 (R101); `rx` is the receive accumulator of R32. -/
def receiveBits : Nat → Byte → State → Byte × State
  | 0, rx, s => (rx, s)
  | n + 1, rx, s =>
    let r := pulseSample s
    receiveBits n (setBit rx n r.1) r.2

/-- The body of `RDB ack` after its check (R101). Acknowledge is SDA driven low, none is SDA released. -/
def receiveByte (ack : Bool) (s : State) : Byte × State :=
  let r := receiveBits 8 0x00 (release .sda s)
  (r.1, release .sda (pulse (writeLevel (!ack) r.2)))

/-- `RDB ack` (R101). -/
def execRdb (ack : Bool) (s : State) : Result :=
  afterInit .rdb (fun s => (.byte (receiveByte ack s).1, (receiveByte ack s).2)) s

/-- The body of `GCR` after its check (R104): the second byte is sent only if the first was acknowledged. -/
def gcrBody (s : State) : Byte × State :=
  let r := sendByte generalCallAddress (startBody s)
  if busErrorOf r.1 = errOk then
    let q := sendByte generalCallReset r.2
    (busErrorOf q.1, q.2)
  else (busErrorOf r.1, r.2)

/-- `GCR` (R104). -/
def execGcr (s : State) : Result := afterInit .gcr (fun s => (.err (gcrBody s).1, (gcrBody s).2)) s

end Sys2Proof.Machine
end

