-- ==== Sys2Proof/Machine/Dispatch.lean ====
section
/-! DEFINITION. One command, dispatched to its meaning (R63). -/

namespace Sys2Proof.Machine

/-- One command at a state: one arm per row of the opcode map. -/
def exec (i : Instr) (s : State) : Host.Outcome State Fault Refusal :=
  match i with
  | .init => Sys2Proof.Machine.execInit s
  | .start => Sys2Proof.Machine.execStart s
  | .stop => Sys2Proof.Machine.execStop s
  | .wrb v => Sys2Proof.Machine.execWrb v s
  | .rdb ack => Sys2Proof.Machine.execRdb ack s
  | .gcr => Sys2Proof.Machine.execGcr s
  | .crc8 b0 b1 => Sys2Proof.Machine.execCrc8 b0 b1 s
  | .chk b0 b1 c => Sys2Proof.Machine.execChk b0 b1 c s

end Sys2Proof.Machine
end

