-- ==== Sys2Proof/Machine/Step.lean ====
section
/-! DEFINITION. One step: the block accepts the next command word the host has presented and runs it to completion (R21,
R65, R164). -/

namespace Sys2Proof.Machine

/-- One atomic step of the block (R21, R48). -/
def step (s : State) : Host.Outcome State Fault Refusal :=
  match takeCommand s with
  | none => idleStep s
  | some (w, s') =>
    match decode w with
    | some i => exec i s'
    | none => raiseIllegal w s'

/-- The state in which the host has just presented the word of a table row, to be accepted by the very next step. -/
def State.withFetchWord (s : State) (nbits w : Nat) : State := present (BitVec.ofNat 32 (w % 2 ^ nbits)) s

end Sys2Proof.Machine
end

