-- ==== Sys2Proof/Machine/Access.lean ====
section
/-! DEFINITION. The access sequences (43_access_sequences.md R140 to R146): pseudo-instructions the host expands into
commands. What a sequence keeps between its commands is the host's, not the block's; the parameters of R5 are arguments.
A host procedure that meets a model fault ends in that fault (R163). -/

namespace Sys2Proof.Machine

/-- A pseudo-instruction of R69; `RDWC`'s second operand is the time-out no source gives a meaning (D22). -/
inductive Pseudo where
  | bwa
  | bra
  | enda
  | scmd (k : BitVec 16)
  | rdwc (fa : Bool) (timeout : Option Nat)
  deriving DecidableEq, Repr

/-- What a pseudo-instruction returns to the host: a BusError, nothing, or a word with an OperationError. -/
inductive HostValue where
  | error (e : Byte)
  | nothing
  | word (value : BitVec 16) (e : Byte)
  deriving DecidableEq, Repr

/-- A host procedure's outcome: its value and the state, or the fault it met. -/
abbrev HostRun (α : Type) := Host.Outcome (α × State) Fault Refusal

/-- The host goes on with a procedure's value. -/
def andThen {α β : Type} (r : HostRun α) (k : α → State → HostRun β) : HostRun β :=
  match r with
  | .next (a, s) => k a s
  | .fault f => .fault f
  | .refused q => .refused q

/-- `err(e)` is read as `e`, and `byte(b)` as `b` (43_access_sequences.md). -/
def Response.value : Response → Byte
  | .none => errOk
  | .err e => e
  | .byte b => b

/-- `r <- CMD operands`: the host issues one command and receives its response, read as a byte. A command that faults
returns none, and the block takes no further step (R163). -/
def issue (i : Instr) (s : State) : HostRun Byte :=
  match exec i s with
  | .next t =>
    match t.fault with
    | some f => .fault f
    | none => .next (Response.value (t.responses.getLastD .none), t)
  | .fault f => .fault f
  | .refused q => .refused q

/-- `BWA` (R140), for a device address. -/
def bwa (addr : BitVec 7) (s : State) : HostRun Byte :=
  andThen (issue .start s) fun _ s => issue (.wrb (addrByte addr false)) s

/-- `BRA` (R141), for a device address. -/
def bra (addr : BitVec 7) (s : State) : HostRun Byte :=
  andThen (issue .start s) fun _ s => issue (.wrb (addrByte addr true)) s

/-- `ENDA` (R142). -/
def enda (s : State) : HostRun Unit := andThen (issue .stop s) fun _ s => .next ((), s)

/-- `SCMD k` (R143): the low byte is sent whatever the first response is. -/
def scmd (k : BitVec 16) (s : State) : HostRun Byte :=
  andThen (issue (.wrb (highByte k)) s) fun e1 s =>
  andThen (issue (.wrb (lowByte k)) s) fun e2 s => .next (mergeErr e1 e2, s)

/-- `SCMD` of a named sensor command: the operand is the host's table `CMD_*` (R148). -/
def scmdNamed (c : SensorCommand) (s : State) : HostRun Byte := scmd (Config.cmdValue c) s

/-- `RDWC fa` (R144): on a mismatch the word is a free value (D21). -/
def rdwc (fa : Bool) (s : State) : HostRun (BitVec 16 × Byte) :=
  andThen (issue (.rdb true) s) fun b0 s =>
  andThen (issue (.rdb true) s) fun b1 s =>
  andThen (issue (.rdb fa) s) fun c s =>
  andThen (issue (.chk b0 b1 c) s) fun e s =>
    .next ((if e = errOk then wordOf b0 b1 else Config.mismatchWord s.trace, e), s)

/-- A pseudo-instruction (R69), with `DEV_ADDR` as the address. The time-out operand has no effect (D22). -/
def execPseudo (p : Pseudo) (s : State) : HostRun HostValue :=
  match p with
  | .bwa => andThen (bwa Config.devAddr s) fun e s => .next (.error e, s)
  | .bra => andThen (bra Config.devAddr s) fun e s => .next (.error e, s)
  | .enda => andThen (enda s) fun _ s => .next (.nothing, s)
  | .scmd k => andThen (scmd k s) fun e s => .next (.error e, s)
  | .rdwc fa _ => andThen (rdwc fa s) fun r s => .next (.word r.1 r.2, s)

/-- The commands a pseudo-instruction expands to (R69); the checksum command of `RDWC` has the three bytes just read as
its operands, so they are arguments. -/
def expansion (addr : BitVec 7) (b0 b1 c : Byte) : Pseudo → List Instr
  | .bwa => [.start, .wrb (addrByte addr false)]
  | .bra => [.start, .wrb (addrByte addr true)]
  | .enda => [.stop]
  | .scmd k => [.wrb (highByte k), .wrb (lowByte k)]
  | .rdwc fa _ => [.rdb true, .rdb true, .rdb fa, .chk b0 b1 c]

/-- What the host does with the words that follow a failed one. The spec gives two answers: R145 (with 90_conflicts.md C3)
skips a later pseudo-instruction after a failure, and R184 asks that a read end on a byte without acknowledge, as the second
word of C3's SingleShotMeasurement does. DESIGN CHOICE: the model has both (notes/assumptions/13.md). -/
inductive ReadPolicy where
  /-- R145: no further word is read. After a failed word that was not the last, `ENDA` follows an ACKNOWLEDGED byte, so
  R184's duty is not met. -/
  | skipAfterFailure
  /-- R184: every word is read, so the last byte before `ENDA` is not acknowledged. -/
  | readAll
  deriving DecidableEq, Repr

/-- `RDWC+` of R145 with `n + 1` words: the last one reads its last byte without acknowledge (R184). `e` is the error so
far (R146). The words after a failed one are read as the policy says: under `skipAfterFailure` R184's duty is given up there
(DESIGN CHOICE, notes/assumptions/13.md). -/
def readWords (p : ReadPolicy) : Nat → Byte → State → HostRun (List (BitVec 16) × Byte)
  | 0, e, s => andThen (rdwc false s) fun r s => .next (([r.1], mergeErr e r.2), s)
  | n + 1, e, s =>
    andThen (rdwc true s) fun r s =>
      if isOk (mergeErr e r.2) = true ∨ p = .readAll then
        andThen (readWords p n (mergeErr e r.2) s) fun q s => .next ((r.1 :: q.1, q.2), s)
      else .next (([r.1], mergeErr e r.2), s)

/-- The part of an operation between its opening `BWA` and its closing `ENDA` (R145): a later step is skipped once an
earlier one has failed, and the errors are merged. `words` is how many words are read. -/
def operationBody (p : ReadPolicy) (addr : BitVec 7) (k : BitVec 16) (words : Nat) (s : State) :
    HostRun (List (BitVec 16) × Byte) :=
  andThen (bwa addr s) fun e0 s =>
    if isOk e0 then
      andThen (scmd k s) fun e1 s =>
        match words with
        | 0 => .next (([], mergeErr e0 e1), s)
        | n + 1 =>
          if isOk (mergeErr e0 e1) then
            andThen (bra addr s) fun e2 s =>
              if isOk (mergeErr (mergeErr e0 e1) e2) then readWords p n (mergeErr (mergeErr e0 e1) e2) s
              else .next (([], mergeErr (mergeErr e0 e1) e2), s)
          else .next (([], mergeErr e0 e1), s)
    else .next (([], e0), s)

/-- `operation ::= BWA SCMD [ BRA RDWC+ ] ENDA` (R145): the closing `ENDA` is always issued (D30). -/
def operation (p : ReadPolicy) (addr : BitVec 7) (k : BitVec 16) (words : Nat) (s : State) :
    HostRun (List (BitVec 16) × Byte) :=
  andThen (operationBody p addr k words s) fun r s =>
  andThen (enda s) fun _ s => .next (r, s)

/-- The words and the end of an operation's read part: `RDWC+ ENDA` (R145), the last `RDWC` with `NACK` (R184). -/
def isReads : List Pseudo → Bool
  | [.rdwc fa _, .enda] => !fa
  | .rdwc _ _ :: ps => isReads ps
  | _ => false

/-- Whether a host program is an operation by the grammar of R145, whose last `RDWC` uses `NACK` (R184). -/
def isOperation : List Pseudo → Bool
  | [.bwa, .scmd _, .enda] => true
  | .bwa :: .scmd _ :: .bra :: ps => isReads ps
  | _ => false

end Sys2Proof.Machine
end

