-- ==== Sys2Proof/Machine/Asm.lean ====
section
/-! DEFINITION. The assembler notation of R68 and R69: one command per line, `;` starts a comment, numbers hexadecimal with
`0x` or decimal, each fitting its field. Text is a list of characters. -/

namespace Sys2Proof.Machine

/-- One line's command or pseudo-instruction. -/
inductive AsmItem where
  | cmd (i : Instr)
  | pseudo (p : Pseudo)
  deriving DecidableEq, Repr

/-- The characters that separate words on a line. -/
def isBlank (c : Char) : Bool := c == ' ' || c == '\t' || c == '\r'

/-- A line up to its comment (R68). -/
def beforeComment (cs : List Char) : List Char := cs.takeWhile (· != ';')

/-- Without the blanks at either end. -/
def trim (cs : List Char) : List Char := ((cs.dropWhile isBlank).reverse.dropWhile isBlank).reverse

/-- The pieces between the separators. -/
def pieces (sep : Char) : List Char → List (List Char)
  | [] => [[]]
  | c :: cs =>
    if c == sep then [] :: pieces sep cs
    else
      match pieces sep cs with
      | [] => [[c]]
      | p :: ps => (c :: p) :: ps

/-- A character's place in the run of `count` consecutive characters that begins with `first`. -/
def placeIn (first : Char) (count : Nat) (x : Char) : Option Nat :=
  let place := x.toNat - first.toNat
  if first.toNat ≤ x.toNat ∧ place < count then some place else none

/-- A digit's value (R68): ten decimal digits, then six hexadecimal letters of either case. -/
def digitValue (x : Char) : Option Nat :=
  match placeIn '0' 10 x, (placeIn 'A' 6 x).orElse (fun _ => placeIn 'a' 6 x) with
  | some d, _ => some d
  | none, letter => letter.map (10 + ·)

/-- Digits of a base, most significant first, after the value read so far. -/
def digitsValue (base : Nat) : Nat → List Char → Option Nat
  | acc, [] => some acc
  | acc, c :: cs =>
    match digitValue c with
    | some d => if d < base then digitsValue base (acc * base + d) cs else none
    | none => none

/-- A number (R68): hexadecimal with a `0x` prefix or decimal without one. -/
def numberValue : List Char → Option Nat
  | [] => none
  | '0' :: 'x' :: d :: ds => digitsValue 16 0 (d :: ds)
  | d :: ds => digitsValue 10 0 (d :: ds)

/-- A number that fits a field of `n` bits (R68). -/
def fieldValue (n : Nat) (cs : List Char) : Option (BitVec n) :=
  match numberValue cs with
  | some v => if v < 2 ^ n then some (BitVec.ofNat n v) else none
  | none => none

/-- `ACK` or `NACK` (R68). -/
def ackValue (cs : List Char) : Option Bool :=
  if cs = ['A', 'C', 'K'] then some true
  else if cs = ['N', 'A', 'C', 'K'] then some false
  else none

/-- The operands of a line: none, or those between its commas. -/
def operandsOf (cs : List Char) : List (List Char) :=
  match trim cs with
  | [] => []
  | c :: rest => (pieces ',' (c :: rest)).map trim

/-- A line's mnemonic and operands (R68, R69); `none` where the line is not of the notation. -/
def itemOf (name : List Char) (ops : List (List Char)) : Option AsmItem :=
  if name = ['I', 'N', 'I', 'T'] ∧ ops = [] then some (.cmd .init)
  else if name = ['S', 'T', 'A', 'R', 'T'] ∧ ops = [] then some (.cmd .start)
  else if name = ['S', 'T', 'O', 'P'] ∧ ops = [] then some (.cmd .stop)
  else if name = ['G', 'C', 'R'] ∧ ops = [] then some (.cmd .gcr)
  else if name = ['B', 'W', 'A'] ∧ ops = [] then some (.pseudo .bwa)
  else if name = ['B', 'R', 'A'] ∧ ops = [] then some (.pseudo .bra)
  else if name = ['E', 'N', 'D', 'A'] ∧ ops = [] then some (.pseudo .enda)
  else if name = ['W', 'R', 'B'] then
    match ops with
    | [v] => (fieldValue 8 v).map fun v => .cmd (.wrb v)
    | _ => none
  else if name = ['R', 'D', 'B'] then
    match ops with
    | [a] => (ackValue a).map fun a => .cmd (.rdb a)
    | _ => none
  else if name = ['C', 'R', 'C', '8'] then
    match ops with
    | [b0, b1] => (fieldValue 8 b0).bind fun b0 => (fieldValue 8 b1).map fun b1 => .cmd (.crc8 b0 b1)
    | _ => none
  else if name = ['C', 'H', 'K'] then
    match ops with
    | [b0, b1, c] =>
      (fieldValue 8 b0).bind fun b0 => (fieldValue 8 b1).bind fun b1 => (fieldValue 8 c).map fun c => .cmd (.chk b0 b1 c)
    | _ => none
  else if name = ['S', 'C', 'M', 'D'] then
    match ops with
    | [k] => (fieldValue 16 k).map fun k => .pseudo (.scmd k)
    | _ => none
  else if name = ['R', 'D', 'W', 'C'] then
    match ops with
    | [a] => (ackValue a).map fun a => .pseudo (.rdwc a none)
    | [a, t] => (ackValue a).bind fun a => (numberValue t).map fun t => .pseudo (.rdwc a (some t))
    | _ => none
  else none

/-- One line (R68): `some none` for a line with nothing but blanks or a comment, `none` for one outside the notation. -/
def parseLine (line : List Char) : Option (Option AsmItem) :=
  match trim (beforeComment line) with
  | [] => some none
  | c :: cs =>
    let name := (c :: cs).takeWhile (!isBlank ·)
    (itemOf name (operandsOf ((c :: cs).drop name.length))).map some

/-- A program's text, line by line (R68). -/
def parseLines : List (List Char) → Option (List AsmItem)
  | [] => some []
  | l :: ls =>
    match parseLine l, parseLines ls with
    | some (some i), some is => some (i :: is)
    | some none, some is => some is
    | _, _ => none

/-- A program's text (R68). -/
def assemble (text : List Char) : Option (List AsmItem) := parseLines (pieces '\n' text)

/-- The hexadecimal digit of a number below 16. -/
def hexDigit (n : Nat) : Char := if n < 10 then Char.ofNat (48 + n) else Char.ofNat (55 + n)

/-- A byte as R68's examples write it. -/
def printByte (v : Byte) : List Char := ['0', 'x', hexDigit (v.toNat / 16), hexDigit (v.toNat % 16)]

/-- The mnemonic's letters (R68). -/
def printName : Mnemonic → List Char
  | .init => ['I', 'N', 'I', 'T']
  | .start => ['S', 'T', 'A', 'R', 'T']
  | .stop => ['S', 'T', 'O', 'P']
  | .wrb => ['W', 'R', 'B']
  | .rdb => ['R', 'D', 'B']
  | .gcr => ['G', 'C', 'R']
  | .crc8 => ['C', 'R', 'C', '8']
  | .chk => ['C', 'H', 'K']

/-- A command in the notation of R68. -/
def printInstr (i : Instr) : List Char :=
  match i with
  | .init => printName .init
  | .start => printName .start
  | .stop => printName .stop
  | .wrb v => printName .wrb ++ ' ' :: printByte v
  | .rdb ack => printName .rdb ++ ' ' :: (if ack then ['A', 'C', 'K'] else ['N', 'A', 'C', 'K'])
  | .gcr => printName .gcr
  | .crc8 b0 b1 => printName .crc8 ++ ' ' :: printByte b0 ++ ',' :: ' ' :: printByte b1
  | .chk b0 b1 c => printName .chk ++ ' ' :: printByte b0 ++ ',' :: ' ' :: printByte b1 ++ ',' :: ' ' :: printByte c

end Sys2Proof.Machine
end

