-- ==== Sys2Proof/Machine/Trace.lean ====
section
/-! DEFINITION. What a trace says of the wires: the wire level (R27), the line-state machine (R88), the bus conditions (R89),
the waiting time (R192), the order of edges and delays (R182), and the event sequences the spec lists for each command
(R84 to R87, R102, R103). No meaning reads these; claims are stated in their terms. -/

namespace Sys2Proof.Machine

/-- The level of a line on the wire (R27): low when the block or the environment pulls it low. Before `INIT` the level is
any value (R35, U6). -/
def wireLevel (l : Line) (d : Drive) (envReleases : Bool) : Bool :=
  match d with
  | .unconf => Config.unconfiguredLevel l
  | .low => false
  | .rel => envReleases

/-- A drive event's effect on the drive states (R80, R81, R88); the other events have none. -/
def driveEvent (d : Drv) : Event → Drv
  | .low l => withDrive d l .low
  | .rel l => withDrive d l .rel
  | .wait _ => d
  | .smp _ => d

/-- The drive states after a run of events. -/
def replay (d : Drv) (es : List Event) : Drv := es.foldl driveEvent d

/-- The bus conditions of R89 that a single SDA event can make. -/
inductive Condition where
  | start | stop | dataChange
  deriving DecidableEq, Repr

/-- Whether an event is an SDA event. -/
def isSdaEvent : Event → Bool
  | .low .sda => true
  | .rel .sda => true
  | _ => false

/-- The condition an event makes, given the drive states before it (R89). -/
def conditionOf (d : Drv) (e : Event) : Option Condition :=
  if isSdaEvent e = true ∧ d.scl = .low then some .dataChange
  else if e = .low .sda ∧ d.sda = .rel ∧ d.scl = .rel then some .start
  else if e = .rel .sda ∧ d.sda = .low ∧ d.scl = .rel then some .stop
  else none

/-- The condition of each SDA event of a run, in order (R89). -/
def sdaConditions (d : Drv) : List Event → List (Option Condition)
  | [] => []
  | e :: es =>
    if isSdaEvent e then conditionOf d e :: sdaConditions (driveEvent d e) es
    else sdaConditions (driveEvent d e) es

/-- The clock pulses of R89 in a run: each `LOW(SCL)` that ends a release made while SCL was low. `open` says whether such
a release is waiting for it. -/
def pulsesFrom (isOpen : Bool) (d : Drv) : List Event → Nat
  | [] => 0
  | e :: es =>
    if e = .rel .scl then pulsesFrom (isOpen || decide (d.scl = .low)) (driveEvent d e) es
    else if e = .low .scl then (if isOpen then 1 else 0) + pulsesFrom false (driveEvent d e) es
    else pulsesFrom isOpen (driveEvent d e) es

/-- The number of clock pulses of a run that starts from the drive states `d`, by R89's definition. It differs from R192's
column where SCL starts otherwise than a pulse expects: a repeated `START` has one, a `WRB` or `RDB` from Idle has eight.
DESIGN CHOICE: the two counts are two definitions, this one and `pulseCalls` (notes/assumptions/17.md). -/
def clockPulses (d : Drv) (es : List Event) : Nat := pulsesFrom false d es

/-- The number of calls of `Pulse` in a run (R84): the releases of SCL that come directly after a `WAIT(T_DATA_SETUP)`. It
does not depend on the drive states. DESIGN CHOICE: this is what the model takes R192's column of clock pulses to count
(notes/assumptions/17.md). -/
def pulseCalls (before : Option Event) : List Event → Nat
  | [] => 0
  | e :: es => (if e = .rel .scl ∧ before = some (.wait .dataSetup) then 1 else 0) + pulseCalls (some e) es

/-- The sum of a run's `WAIT` parameters, in microseconds (R192): a lower bound of its real time (R6). -/
def waitingTime : List Event → Nat
  | [] => 0
  | .wait p :: es => Config.duration p + waitingTime es
  | .low _ :: es => waitingTime es
  | .rel _ :: es => waitingTime es
  | .smp _ :: es => waitingTime es

/-- Setup before every clock release (R182): each `REL(SCL)` comes directly after a `WAIT(T_DATA_SETUP)`. -/
def setupBeforeRelease (before : Option Event) : List Event → Bool
  | [] => true
  | e :: es => decide (e = .rel .scl → before = some (.wait .dataSetup)) && setupBeforeRelease (some e) es

/-- Hold after every clock pull-low (R182): each `LOW(SCL)` comes directly before a `WAIT(T_DATA_HOLD)`. -/
def holdAfterLow : List Event → Bool
  | [] => true
  | e :: es => decide (e = .low .scl → es.head? = some (.wait .dataHold)) && holdAfterLow es

/-- Samples only after SDA is released and a set-up wait has passed since (R182). `ready` is `none` while SDA is not
released, then whether a `WAIT(T_DATA_SETUP)` has passed since. -/
def samplesSettled (ready : Option Bool) : List Event → Bool
  | [] => true
  | .rel .sda :: es => samplesSettled (some false) es
  | .low .sda :: es => samplesSettled none es
  | .wait .dataSetup :: es => samplesSettled (ready.map fun _ => true) es
  | .smp _ :: es => decide (ready = some true) && samplesSettled ready es
  | _ :: es => samplesSettled ready es

/-- The events a state has that an earlier one had not (R25). -/
def newEvents (s t : State) : List Event := t.trace.drop s.trace.length

/-- The events of `INIT` (R85). -/
def initEvents : List Event := [.rel .sda, .rel .scl]

/-- The events of `START` (R86). -/
def startEvents : List Event :=
  [.rel .sda, .rel .scl, .wait .startSetup, .low .sda, .wait .startHold, .low .scl]

/-- The events of `STOP` (R87). -/
def stopEvents : List Event := [.low .scl, .low .sda, .rel .scl, .wait .stopSetup, .rel .sda]

/-- The events of a pulse up to its sample point (R84). -/
def riseEvents : List Event := [.wait .dataSetup, .rel .scl, .wait .clockHigh]

/-- The events of a pulse after its sample point (R84). -/
def fallEvents : List Event := [.low .scl, .wait .dataHold]

/-- The SDA event that writes a level (R11). -/
def levelEvent (b : Bool) : Event := if b then .rel .sda else .low .sda

/-- The 6 events of one written bit (R102). -/
def writtenBit (b : Bool) : List Event := levelEvent b :: (riseEvents ++ fallEvents)

/-- The 6 events of one sampled clock pulse (R103). -/
def sampledBit (b : Bool) : List Event := riseEvents ++ .smp b :: fallEvents

/-- The 48 events of the 8 data bits of `WRB v` (R102). -/
def writtenByte (v : Byte) : List Event := (bitsMSB v).flatMap writtenBit

/-- The 55 events of `WRB v` whose acknowledge sample is `a` (R102). -/
def wrbEvents (v : Byte) (a : Bool) : List Event := writtenByte v ++ .rel .sda :: sampledBit a

/-- The trace `WRB v` has made when it samples the acknowledge. -/
def traceAtAck (v : Byte) (trace : List Event) : List Event := trace ++ writtenByte v ++ .rel .sda :: riseEvents

/-- The 56 events of `RDB ack` that samples the given bits (R103). -/
def rdbEvents (bits : List Bool) (ack : Bool) : List Event :=
  .rel .sda :: bits.flatMap sampledBit ++ levelEvent (!ack) :: riseEvents ++ fallEvents ++ [.rel .sda]

/-- The levels the environment answers to `n` sampled pulses in a row: each draw sees every earlier event (R26, R48). -/
def drawnBits : Nat → List Bool → List Event → List Bool
  | 0, _, _ => []
  | n + 1, answers, trace =>
    let b := envDraw answers (trace ++ riseEvents)
    b :: drawnBits n answers.tail (trace ++ sampledBit b)

/-- The byte whose bits, most significant first, are the given ones (R44). -/
def byteOfBits (bits : List Bool) : Byte := bits.foldl (fun x b => (x <<< 1) ||| (if b then 1 else 0)) 0

end Sys2Proof.Machine
end

