-- ==== Sys2Proof/Safety.lean ====
section
/-! DEFINITION. The terms claims use: what a normal run is (R163), what holds of every state a run reaches (the invariant
of R22, R24, R30, R88, R90), what a host may rely on when only the hidden state differs (R24, R27, R28), and the rules a host
program must respect (R181, R183, R184, R185, R188). -/

namespace Sys2Proof.Machine

/-- A normal end (R163): a next state in which no command has faulted. A faulted state is not one. -/
def EndsNormally (r : Result) : Prop := ∃ t, r = .next t ∧ t.fault = none

/-- A recorded fault is one that its state can raise (R162). -/
def FaultFits (init : Bool) : Fault → Prop
  | .illegalCommand w => decode w = none
  | .notInitialized op => init = false ∧ op ≠ .init
  | .reInit => init = true

/-- The invariant of the block. -/
structure Inv (s : State) : Prop where
  /-- the drive states are what the trace's drive events make of the reset state (R80, R81, R88) -/
  drives : replay ⟨.unconf, .unconf⟩ s.trace = s.drv
  /-- before `INIT` nothing has happened (R22, R23, R24) -/
  fresh : s.init = false → s.trace = [] ∧ s.phase = .uninit ∧ s.responses = []
  /-- after `INIT` both lines stay configured (R22, R88) -/
  configured : s.init = true → s.drv.sda ≠ .unconf ∧ s.drv.scl ≠ .unconf ∧ s.phase ≠ .uninit
  /-- inside a transaction the block holds the clock low between commands (R90) -/
  active : s.phase = .active → s.drv.scl = .low
  /-- outside a transaction the block leaves the data line released between commands (R90) -/
  idle : s.phase = .idle → s.drv.sda = .rel
  /-- a recorded fault fits the state (R162) -/
  fault : ∀ f, s.fault = some f → FaultFits s.init f
  /-- bits 7 to 3 of an error value are never set (R30) -/
  errors : ∀ e, Response.err e ∈ s.responses → e &&& 0xF8 = 0

/-- Two states that differ only in what no command reads: the drive states, the phase, the responses and the pending
commands (R24, R27, R28, R83). -/
structure SameView (s s' : State) : Prop where
  init : s.init = s'.init
  fault : s.fault = s'.fault
  trace : s.trace = s'.trace
  envAnswers : s.envAnswers = s'.envAnswers

/-- The phase a command leaves (R24). -/
def phaseAfter (p : Phase) : Instr → Phase
  | .init => .idle
  | .start => .active
  | .stop => .idle
  | .gcr => .active
  | .wrb _ => p
  | .rdb _ => p
  | .crc8 _ _ => p
  | .chk _ _ _ => p

/-- The response of a command is of the kind and in the range R64 gives it. -/
def ResponseFits : Instr → Response → Prop
  | .init, r => r = .none
  | .start, r => r = .none
  | .stop, r => r = .none
  | .wrb _, r => r = .err 0x00 ∨ r = .err 0x01
  | .rdb _, r => ∃ b, r = .byte b
  | .gcr, r => r = .err 0x00 ∨ r = .err 0x01
  | .crc8 _ _, r => ∃ b, r = .byte b
  | .chk _ _ _, r => r = .err 0x00 ∨ r = .err 0x02

/-- A host program issues `INIT` first and never again (R181). -/
def initOnce : List Instr → Bool
  | [] => true
  | i :: is => i == .init && is.all (· != .init)

/-- `WRB` and `RDB` stand only inside a transaction (R183). -/
def bytesInside (p : Phase) : List Instr → Bool
  | [] => true
  | i :: is =>
    (p == .active || (mnemonicOf i != .wrb && mnemonicOf i != .rdb)) && bytesInside (phaseAfter p i) is

/-- The last byte of a read is not acknowledged: after an acknowledged `RDB`, an unacknowledged one comes before the next
framing command (R184). `acked` says whether the last byte read was acknowledged. DESIGN CHOICE (notes/assumptions/14.md):
a program that ends after an acknowledged `RDB`, with no later `START`, `STOP` or `GCR`, is accepted. -/
def lastReadUnacked (acked : Bool) : List Instr → Bool
  | [] => true
  | .rdb ack :: is => lastReadUnacked ack is
  | .start :: is => !acked && lastReadUnacked acked is
  | .stop :: is => !acked && lastReadUnacked acked is
  | .gcr :: is => !acked && lastReadUnacked acked is
  | .init :: is => lastReadUnacked acked is
  | .wrb _ :: is => lastReadUnacked acked is
  | .crc8 _ _ :: is => lastReadUnacked acked is
  | .chk _ _ _ :: is => lastReadUnacked acked is

/-- A `STOP` comes after a `GCR` and before the next transaction (R188). `called` says whether one is still owed.
DESIGN CHOICE (notes/assumptions/14.md): a program that ends while one is owed is not accepted. -/
def closesGeneralCall (called : Bool) : List Instr → Bool
  | [] => !called
  | .gcr :: is => !called && closesGeneralCall true is
  | .start :: is => !called && closesGeneralCall called is
  | .stop :: is => closesGeneralCall false is
  | .init :: is => closesGeneralCall called is
  | .wrb _ :: is => closesGeneralCall called is
  | .rdb _ :: is => closesGeneralCall called is
  | .crc8 _ _ :: is => closesGeneralCall called is
  | .chk _ _ _ :: is => closesGeneralCall called is

/-- The commands that open a transaction: `START`, and `GCR` because it begins with a start condition (R24). -/
def opensTransaction : Instr → Bool
  | .start => true
  | .gcr => true
  | .init => false
  | .stop => false
  | .wrb _ => false
  | .rdb _ => false
  | .crc8 _ _ => false
  | .chk _ _ _ => false

/-- The thread that holds the bus after a command of thread `t` (R185): an opener takes it, `STOP` gives it back. -/
def ownerAfter (owner : Option Nat) (t : Nat) (i : Instr) : Option Nat :=
  if opensTransaction i then some t else if i = .stop then none else owner

/-- Between a `START` and its `STOP` every command comes from one host thread (R52, R185). `owner` is the thread that
holds the bus (notes/assumptions/14.md). -/
def serialized (owner : Option Nat) : List (Nat × Instr) → Bool
  | [] => true
  | (t, i) :: is => (owner == none || owner == some t) && serialized (ownerAfter owner t i) is

end Sys2Proof.Machine
end

