-- ==== Sys2Proof/WellFormed.lean ====
section
/-! DEFINITION. Which command words are well formed, written from the bullets of R66 (the words that decode to `Illegal`)
and independent of the match and mask columns of R63 that the decoder uses. A term of `Instr` needs no check: each operand
has its field's width. -/

namespace Sys2Proof

open Machine

/-- `OP` names a command: neither `0x0` nor `0x9` to `0xF` (R66, first bullet). -/
def opAssigned (w : Word) : Bool := 1 ≤ (opField w).toNat && (opField w).toNat ≤ 8

/-- `Z` is zero (R66). -/
def zClear (w : Word) : Bool := zField w == 0

/-- `A` is zero in every command but `RDB` (R66). -/
def aClear (w : Word) : Bool := !aField w || opField w == opNumber .rdb

/-- `D0` is zero in `INIT`, `START`, `STOP`, `RDB`, `GCR` and `CRC8` (R66). -/
def d0Clear (w : Word) : Bool :=
  d0Field w == 0 || opField w == opNumber .wrb || opField w == opNumber .chk

/-- `D1` and `D2` are zero in every command but `CRC8` and `CHK` (R66). -/
def d12Clear (w : Word) : Bool :=
  (d1Field w == 0 && d2Field w == 0) || opField w == opNumber .crc8 || opField w == opNumber .chk

/-- A command word that R66 does not list as illegal. -/
def wellFormedWord (w : Word) : Bool :=
  opAssigned w && zClear w && aClear w && d0Clear w && d12Clear w

end Sys2Proof
end

