-- ==== Sys2Proof/Certificates/Slice0/Obligations.lean ====
section
/-! DEFINITION. The statements for the provers. Each docstring names the rule of spec/ it formalises. Where a command
samples SDA, the level is `envDraw` of the scripted answers and the trace (notes/assumptions/3.md), for EVERY list of
answers; with none scripted it is the opaque `envSDA(trace)` of R26. Responses are read from the list the host has received
(notes/assumptions/2.md). An equation `exec i s = .next t` with the whole of `t` is also the command's frame: every field
`t` does not name is unchanged. -/

open Sys2Proof Sys2Proof.Machine

/-! ### Reset, the step and decoding -/

/-- R35: what power-on leaves. The model's own fields (commands, responses, scripted answers) are empty, which is the
model's choice (notes/assumptions/2.md, 3.md, 5.md). -/
def Obligations.ResetLeavesBlockUnconfigured : Prop :=
  State.reset.drv.sda = .unconf ∧ State.reset.drv.scl = .unconf ∧ State.reset.init = false ∧
  State.reset.phase = .uninit ∧ State.reset.trace = [] ∧ State.reset.fault = none

/-- R21, R65: when the word the host presents next decodes, a step is the decoded command, run at the state from which the
word has been taken; nothing else is added around it. -/
def Obligations.StepRunsTheDecodedCommand : Prop :=
  ∀ (s : State) (w : Word) (rest : List Word) (i : Instr),
    s.cmds = w :: rest → decode w = some i → step s = exec i { s with cmds := rest }

/-- R171: while the host presents nothing, a step changes nothing. That waiting is a step of the model is the model's choice
(notes/assumptions/5.md). -/
def Obligations.StepWithoutCommandWaits : Prop :=
  ∀ s : State, s.fault = none → s.cmds = [] → step s = .next s

/-- R63, R68: words written out from the opcode map and the examples of R68 decode to the commands they stand for. -/
def Obligations.OpcodeMapWordsDecode : Prop :=
  decode 0x10000000 = some .init ∧ decode 0x20000000 = some .start ∧ decode 0x30000000 = some .stop ∧
  decode 0x40000088 = some (.wrb 0x88) ∧ decode 0x51000000 = some (.rdb true) ∧
  decode 0x50000000 = some (.rdb false) ∧ decode 0x60000000 = some .gcr ∧
  decode 0x70BEEF00 = some (.crc8 0xBE 0xEF) ∧ decode 0x80BEEF92 = some (.chk 0xBE 0xEF 0x92) ∧
  decode 0x00000000 = none ∧ decode 0x90000000 = none ∧ decode 0x400001AA = none

/-- R61 to R65: decoding an encoded command gives it back, with every operand at every value. -/
def Obligations.DecodeOfEncodeIsTheCommand : Prop :=
  ∀ i : Instr, decode (encode i) = some i

/-- R65, R66: a word that decodes is exactly the encoding of its command, so no bit of it is ignored. -/
def Obligations.EncodeOfDecodeIsTheWord : Prop :=
  ∀ (w : Word) (i : Instr), decode w = some i → encode i = w

/-- R63: "The patterns never overlap". -/
def Obligations.OpcodeRowsNeverOverlap : Prop :=
  ∀ w : Word, opcodeMap.Pairwise fun r q => ¬(selects w r = true ∧ selects w q = true)

/-- R66 against R65: the words the decoder rejects are exactly those the bullets of R66 list, and a step on such a word
records `IllegalCommand` and nothing else. -/
def Obligations.IllegalWordsAreExactlyTheListedOnes : Prop :=
  (∀ w : Word, decode w = none ↔ wellFormedWord w = false) ∧
  ∀ (s : State) (w : Word) (rest : List Word), s.fault = none → s.cmds = w :: rest → wellFormedWord w = false →
    step s = .next { s with cmds := rest, fault := some (.illegalCommand w) }

/-- R68: a command written in the assembler notation is read back as that command, and the word beside it in R68 is its
encoding. -/
def Obligations.AssemblerReadsPrintedCommands : Prop :=
  (∀ i : Instr, assemble (printInstr i) = some [.cmd i]) ∧
  ∀ (v b0 b1 c : Byte),
    encode (.wrb v) = 0x40000000 ||| v.setWidth 32 ∧
    encode (.rdb true) = 0x51000000 ∧ encode (.rdb false) = 0x50000000 ∧
    encode (.crc8 b0 b1) = 0x70000000 ||| (b0.setWidth 32 <<< 16) ||| (b1.setWidth 32 <<< 8) ∧
    encode (.chk b0 b1 c) =
      0x80000000 ||| (b0.setWidth 32 <<< 16) ||| (b1.setWidth 32 <<< 8) ||| c.setWidth 32

/-! ### Primitives -/

/-- R80, R81, R82: the drive and delay primitives set the line they name, append their one event, and do nothing else; after
`Release(L)` the wire is high unless the environment pulls it low (R27). -/
def Obligations.LinePrimitivesSetOneLineAndTraceIt : Prop :=
  (∀ s, driveLow .sda s = { s with drv := ⟨.low, s.drv.scl⟩, trace := s.trace ++ [.low .sda] }) ∧
  (∀ s, driveLow .scl s = { s with drv := ⟨s.drv.sda, .low⟩, trace := s.trace ++ [.low .scl] }) ∧
  (∀ s, release .sda s = { s with drv := ⟨.rel, s.drv.scl⟩, trace := s.trace ++ [.rel .sda] }) ∧
  (∀ s, release .scl s = { s with drv := ⟨s.drv.sda, .rel⟩, trace := s.trace ++ [.rel .scl] }) ∧
  (∀ p s, wait p s = { s with trace := s.trace ++ [.wait p] }) ∧
  ∀ l s e, wireLevel l (driveOf (release l s).drv l) e = e ∧ wireLevel l (driveOf (driveLow l s).drv l) e = false

/-- R83, R27: a sample returns the wired-AND of the block's drive and the environment's draw on the trace before the sample,
and traces what it returns. Using up a scripted answer is the model's choice (notes/assumptions/3.md). -/
def Obligations.SampleReadsTheWiredLevel : Prop :=
  (∀ s, sample s =
    ((if s.drv.sda = .rel then envDraw s.envAnswers s.trace else false),
      { s with
        trace := s.trace ++ [.smp (if s.drv.sda = .rel then envDraw s.envAnswers s.trace else false)]
        envAnswers := s.envAnswers.tail })) ∧
  (∀ s, s.drv.sda ≠ .unconf → (sample s).1 = wireLevel .sda s.drv.sda (envDraw s.envAnswers s.trace)) ∧
  ∀ tr, envDraw [] tr = Config.envSDA tr

/-- R84: a pulse appends 5 events, or 6 with the sample between the clock's high time and its fall; it ends with SCL low and
leaves SDA. -/
def Obligations.PulseHasFiveOrSixEvents : Prop :=
  (∀ s, pulse s = { s with
    drv := ⟨s.drv.sda, .low⟩
    trace := s.trace ++ [.wait .dataSetup, .rel .scl, .wait .clockHigh, .low .scl, .wait .dataHold] }) ∧
  ∀ s, (pulseSample s).2.drv = ⟨s.drv.sda, .low⟩ ∧
    (pulseSample s).2.trace = s.trace ++
      [.wait .dataSetup, .rel .scl, .wait .clockHigh, .smp (pulseSample s).1, .low .scl, .wait .dataHold]

/-! ### The eight commands: result, completion and frame -/

/-- R85: `INIT`. -/
def Obligations.InitReleasesBothLines : Prop :=
  encode .init = 0x10000000 ∧
  ∀ s : State, s.fault = none →
    (s.init = false → exec .init s = .next { s with
      drv := ⟨.rel, .rel⟩
      init := true
      phase := .idle
      trace := s.trace ++ [.rel .sda, .rel .scl]
      responses := s.responses ++ [.none] }) ∧
    (s.init = true → exec .init s = .next { s with fault := some .reInit })

/-- R86: `START`, from either phase (a repeated start is the same six events). -/
def Obligations.StartMakesAStartCondition : Prop :=
  encode .start = 0x20000000 ∧
  ∀ s : State, s.fault = none →
    (s.init = true → exec .start s = .next { s with
      drv := ⟨.low, .low⟩
      phase := .active
      trace := s.trace ++
        [.rel .sda, .rel .scl, .wait .startSetup, .low .sda, .wait .startHold, .low .scl]
      responses := s.responses ++ [.none] }) ∧
    (s.init = false → exec .start s = .next { s with fault := some (.notInitialized .start) })

/-- R87: `STOP`, from any phase. -/
def Obligations.StopMakesAStopCondition : Prop :=
  encode .stop = 0x30000000 ∧
  ∀ s : State, s.fault = none →
    (s.init = true → exec .stop s = .next { s with
      drv := ⟨.rel, .rel⟩
      phase := .idle
      trace := s.trace ++ [.low .scl, .low .sda, .rel .scl, .wait .stopSetup, .rel .sda]
      responses := s.responses ++ [.none] }) ∧
    (s.init = false → exec .stop s = .next { s with fault := some (.notInitialized .stop) })

/-- R100, R102: `WRB v`. The acknowledge level is the environment's draw at the ninth clock; it alone decides the response. -/
def Obligations.WrbSendsTheByteAndReportsTheAck : Prop :=
  ∀ (v : Byte) (s : State), s.fault = none →
    (s.init = true → ∀ a : Bool, a = envDraw s.envAnswers (traceAtAck v s.trace) →
      exec (.wrb v) s = .next { s with
        drv := ⟨.rel, .low⟩
        trace := s.trace ++ wrbEvents v a
        envAnswers := s.envAnswers.tail
        responses := s.responses ++ [.err (if a then 0x01 else 0x00)] }) ∧
    (s.init = false → exec (.wrb v) s = .next { s with fault := some (.notInitialized .wrb) })

/-- R101, R103, R44: `RDB ack`. Bit 7 is the first level drawn and bit 0 the eighth, and each draw sees every event before
it (R26, R48). -/
def Obligations.RdbReceivesTheDrawnBits : Prop :=
  ∀ (ack : Bool) (s : State), s.fault = none →
    (s.init = true → ∀ b7 b6 b5 b4 b3 b2 b1 b0 : Bool,
      drawnBits 8 s.envAnswers (s.trace ++ [.rel .sda]) = [b7, b6, b5, b4, b3, b2, b1, b0] →
      ∃ rx : Byte, bitsMSB rx = [b7, b6, b5, b4, b3, b2, b1, b0] ∧
        exec (.rdb ack) s = .next { s with
          drv := ⟨.rel, .low⟩
          trace := s.trace ++ rdbEvents [b7, b6, b5, b4, b3, b2, b1, b0] ack
          envAnswers := s.envAnswers.drop 8
          responses := s.responses ++ [.byte rx] }) ∧
    (s.init = false → exec (.rdb ack) s = .next { s with fault := some (.notInitialized .rdb) })

/-- R104: `GCR`. The second byte is sent only if the first was acknowledged, and no stop condition is made. -/
def Obligations.GcrSendsTheGeneralCallReset : Prop :=
  encode .gcr = 0x60000000 ∧
  ∀ s : State, s.fault = none →
    (s.init = true →
      (envDraw s.envAnswers (traceAtAck 0x00 (s.trace ++ startEvents)) = true →
        exec .gcr s = .next { s with
          drv := ⟨.rel, .low⟩
          phase := .active
          trace := s.trace ++ startEvents ++ wrbEvents 0x00 true
          envAnswers := s.envAnswers.tail
          responses := s.responses ++ [.err 0x01] }) ∧
      (envDraw s.envAnswers (traceAtAck 0x00 (s.trace ++ startEvents)) = false →
        ∀ a : Bool,
          a = envDraw s.envAnswers.tail (traceAtAck 0x06 (s.trace ++ startEvents ++ wrbEvents 0x00 false)) →
          exec .gcr s = .next { s with
            drv := ⟨.rel, .low⟩
            phase := .active
            trace := s.trace ++ startEvents ++ wrbEvents 0x00 false ++ wrbEvents 0x06 a
            envAnswers := s.envAnswers.tail.tail
            responses := s.responses ++ [.err (if a then 0x01 else 0x00)] })) ∧
    (s.init = false → exec .gcr s = .next { s with fault := some (.notInitialized .gcr) })

/-- R121: `CRC8 b0, b1` only returns the checksum: no line is touched and no event traced. The values R121 gives. -/
def Obligations.Crc8ReturnsTheChecksum : Prop :=
  crc8 [0x00, 0x00] = 0x81 ∧ crc8 [0xFF, 0xFF] = 0xAC ∧ crc8 [0xBE, 0xEF] = 0x92 ∧
  ∀ (b0 b1 : Byte) (s : State), s.fault = none →
    encode (.crc8 b0 b1) = 0x70000000 ||| (b0.setWidth 32 <<< 16) ||| (b1.setWidth 32 <<< 8) ∧
    (s.init = true → exec (.crc8 b0 b1) s = .next { s with responses := s.responses ++ [.byte (crc8 [b0, b1])] }) ∧
    (s.init = false → exec (.crc8 b0 b1) s = .next { s with fault := some (.notInitialized .crc8) })

/-- R122: `CHK b0, b1, c` only compares. A word's own checksum passes; a floating and a stuck bus are caught. -/
def Obligations.ChkComparesTheChecksum : Prop :=
  checkErrorOf (crc8 [0xFF, 0xFF]) 0xFF = 0x02 ∧ checkErrorOf (crc8 [0x00, 0x00]) 0x00 = 0x02 ∧
  checkErrorOf (crc8 [0xBE, 0xEF]) 0x92 = 0x00 ∧ checkErrorOf (crc8 [0xBE, 0xEF]) 0x93 = 0x02 ∧
  (∀ b0 b1 : Byte, checkErrorOf (crc8 [b0, b1]) (crc8 [b0, b1]) = 0x00) ∧
  ∀ (b0 b1 c : Byte) (s : State), s.fault = none →
    encode (.chk b0 b1 c) =
      0x80000000 ||| (b0.setWidth 32 <<< 16) ||| (b1.setWidth 32 <<< 8) ||| c.setWidth 32 ∧
    (s.init = true → exec (.chk b0 b1 c) s = .next { s with
      responses := s.responses ++ [.err (if crc8 [b0, b1] = c then 0x00 else 0x02)] }) ∧
    (s.init = false → exec (.chk b0 b1 c) s = .next { s with fault := some (.notInitialized .chk) })

/-- R102: the exact trace of a `WRB` and its counts: 55 events, 9 `REL(SCL)`, 9 `LOW(SCL)` and 1 `SMP`. -/
def Obligations.WrbTraceHasNineClocksAndOneSample : Prop :=
  ∀ (v : Byte) (s : State), s.fault = none → s.init = true →
    ∃ (t : State) (a : Bool), exec (.wrb v) s = .next t ∧
      newEvents s t =
        ([7, 6, 5, 4, 3, 2, 1, 0].flatMap fun i =>
          [if v.getLsbD i then .rel .sda else .low .sda,
            .wait .dataSetup, .rel .scl, .wait .clockHigh, .low .scl, .wait .dataHold]) ++
        [.rel .sda, .wait .dataSetup, .rel .scl, .wait .clockHigh, .smp a, .low .scl, .wait .dataHold] ∧
      (newEvents s t).length = 55 ∧ (newEvents s t).count (.rel .scl) = 9 ∧
      (newEvents s t).count (.low .scl) = 9 ∧
      (newEvents s t).count (.smp true) + (newEvents s t).count (.smp false) = 1

/-- R103: the exact trace of an `RDB` and its counts: 56 events, 9 clock pulses and 8 `SMP`. -/
def Obligations.RdbTraceHasNineClocksAndEightSamples : Prop :=
  ∀ (ack : Bool) (s : State), s.fault = none → s.init = true →
    ∃ (t : State) (bits : List Bool), exec (.rdb ack) s = .next t ∧ bits.length = 8 ∧
      newEvents s t =
        [.rel .sda] ++
        (bits.flatMap fun b =>
          [.wait .dataSetup, .rel .scl, .wait .clockHigh, .smp b, .low .scl, .wait .dataHold]) ++
        [if ack then .low .sda else .rel .sda] ++
        [.wait .dataSetup, .rel .scl, .wait .clockHigh, .low .scl, .wait .dataHold] ++
        [.rel .sda] ∧
      (newEvents s t).length = 56 ∧ (newEvents s t).count (.rel .scl) = 9 ∧
      (newEvents s t).count (.low .scl) = 9 ∧
      (newEvents s t).count (.smp true) + (newEvents s t).count (.smp false) = 8

/-- R104 (corner cases): `GCR` has the same trace, lines, phase and result as the host's sequence `START; WRB 0x00;
WRB 0x06` with the third command skipped when the second returns `err(0x01)`. -/
def Obligations.GcrEqualsTheHostSequence : Prop :=
  ∀ s : State, s.fault = none → s.init = true →
    ∃ (e : Byte) (u : State),
      (andThen (issue .start s) fun _ s1 =>
        andThen (issue (.wrb 0x00) s1) fun e1 s2 =>
          if e1 = 0x00 then issue (.wrb 0x06) s2 else .next (e1, s2)) = .next (e, u) ∧
      exec .gcr s = .next { u with responses := s.responses ++ [.err e] }

/-! ### Faults -/

/-- R162: the three model faults. Each records its fault and changes no other state element. -/
def Obligations.ModelFaultsRecordOnlyTheFault : Prop :=
  (∀ (s : State) (w : Word) (rest : List Word), s.fault = none → s.cmds = w :: rest → decode w = none →
    step s = .next { s with cmds := rest, fault := some (.illegalCommand w) }) ∧
  (∀ (s : State) (i : Instr), s.fault = none → s.init = false → i ≠ .init →
    exec i s = .next { s with fault := some (.notInitialized (mnemonicOf i)) }) ∧
  ∀ s : State, s.fault = none → s.init = true → exec .init s = .next { s with fault := some .reInit }

/-- R163: a faulted block accepts no command and takes no step, however many are asked of it, and no run of it ends
normally. That "no step" is the outcome `fault` is the model's reading (notes/assumptions/4.md). -/
def Obligations.FaultIsPermanent : Prop :=
  ∀ (s : State) (f : Fault), s.fault = some f →
    step s = .fault f ∧ (∀ i : Instr, exec i s = .fault f) ∧
    (∀ n : Nat, Host.Core.run core (n + 1) s = .fault f) ∧
    ∀ n : Nat, ¬ EndsNormally (Host.Core.run core n s)

/-- R164: a step that raises a fault does so before any event and returns no response; a step that traces an event completes
normally and returns exactly one. -/
def Obligations.FaultsComeBeforeTheFirstEvent : Prop :=
  ∀ s t : State, step s = .next t →
    (t.fault ≠ none → t.drv = s.drv ∧ t.init = s.init ∧ t.phase = s.phase ∧ t.trace = s.trace ∧
      t.responses = s.responses ∧ t.envAnswers = s.envAnswers) ∧
    (t.trace ≠ s.trace → t.fault = none ∧ ∃ r, t.responses = s.responses ++ [r])

/-! ### The lines and the bus -/

/-- R90: the drive states and phase at the end of each command, whatever the entry state, and "while `phase = Active`,
`drv.SCL = LOW` between commands". -/
def Obligations.DriveStateAtTheEndOfEachCommand : Prop :=
  (∀ s t : State, exec .init s = .next t → t.fault = none → t.drv = ⟨.rel, .rel⟩ ∧ t.phase = .idle) ∧
  (∀ s t : State, exec .start s = .next t → t.fault = none → t.drv = ⟨.low, .low⟩ ∧ t.phase = .active) ∧
  (∀ s t : State, exec .stop s = .next t → t.fault = none → t.drv = ⟨.rel, .rel⟩ ∧ t.phase = .idle) ∧
  (∀ (v : Byte) (s t : State), exec (.wrb v) s = .next t → t.fault = none →
    t.drv = ⟨.rel, .low⟩ ∧ t.phase = s.phase) ∧
  (∀ (ack : Bool) (s t : State), exec (.rdb ack) s = .next t → t.fault = none →
    t.drv = ⟨.rel, .low⟩ ∧ t.phase = s.phase) ∧
  (∀ s t : State, exec .gcr s = .next t → t.fault = none → t.drv = ⟨.rel, .low⟩ ∧ t.phase = .active) ∧
  (∀ (b0 b1 : Byte) (s t : State), exec (.crc8 b0 b1) s = .next t → t.fault = none →
    t.drv = s.drv ∧ t.phase = s.phase) ∧
  (∀ (b0 b1 c : Byte) (s t : State), exec (.chk b0 b1 c) s = .next t → t.fault = none →
    t.drv = s.drv ∧ t.phase = s.phase) ∧
  ∀ s t : State, step s = .next t → (s.phase = .active → s.drv.scl = .low) → t.phase = .active → t.drv.scl = .low

/-- R22, R88: the drive states change only by the traced events; a configured line never leaves that; and a line leaves
`UNCONF` only in the step that runs `INIT`. -/
def Obligations.LinesChangeOnlyByTracedEvents : Prop :=
  ∀ s t : State, step s = .next t →
    t.drv = replay s.drv (newEvents s t) ∧
    (∀ l, driveOf s.drv l ≠ .unconf → driveOf t.drv l ≠ .unconf) ∧
    ∀ l, Inv s → driveOf s.drv l = .unconf → driveOf t.drv l ≠ .unconf →
      s.init = false ∧ t.init = true ∧ newEvents s t = [.rel .sda, .rel .scl]

/-- R91: inside a transaction every SDA event of a `WRB` or `RDB` is a data change; outside one the first SDA event is a
start condition for a `WRB` of a byte with bit 7 clear and no condition otherwise, and every later one is a data change. -/
def Obligations.ByteTransfersKeepTheFraming : Prop :=
  ∀ (i : Instr) (s t : State), (∃ v, i = .wrb v) ∨ (∃ ack, i = .rdb ack) → s.init = true → exec i s = .next t →
    (s.drv.scl = .low → ∀ c ∈ sdaConditions s.drv (newEvents s t), c = some .dataChange) ∧
    (s.drv = ⟨.rel, .rel⟩ →
      ∃ c cs, sdaConditions s.drv (newEvents s t) = c :: cs ∧ (∀ d ∈ cs, d = some .dataChange) ∧
        ((∀ v, i = .wrb v → v.getLsbD 7 = false → c = some .start) ∧
         (∀ v, i = .wrb v → v.getLsbD 7 = true → c = none) ∧
         (∀ ack, i = .rdb ack → c = none)))

/-- R86, R87, R89: `START` makes exactly one start condition and no stop condition, and `STOP` exactly one stop condition
and no start condition, wherever the lines are configured. -/
def Obligations.FramingCommandsMakeOneCondition : Prop :=
  ∀ s t : State, s.init = true → s.drv.sda ≠ .unconf → s.drv.scl ≠ .unconf →
    (exec .start s = .next t →
      (sdaConditions s.drv (newEvents s t)).count (some .start) = 1 ∧
      ((s.drv.scl = .rel → s.drv.sda = .rel) → (sdaConditions s.drv (newEvents s t)).count (some .stop) = 0)) ∧
    (exec .stop s = .next t →
      (sdaConditions s.drv (newEvents s t)).count (some .stop) = 1 ∧
      (sdaConditions s.drv (newEvents s t)).count (some .start) = 0)

/-- R89, R102, R103: inside a transaction a `WRB` or `RDB` makes exactly nine clock pulses. Counting R89's pulses, from the
drive states before the command, is the model's choice (notes/assumptions/17.md). -/
def Obligations.NineClockPulsesPerByte : Prop :=
  ∀ s t : State, s.init = true → s.drv.scl = .low →
    (∀ v, exec (.wrb v) s = .next t → clockPulses s.drv (newEvents s t) = 9) ∧
    (∀ ack, exec (.rdb ack) s = .next t → clockPulses s.drv (newEvents s t) = 9)

/-- R105: every command ends, after a number of events fixed by the command (61 or 116 for `GCR`). -/
def Obligations.CommandsEndAfterFixedEventCounts : Prop :=
  ∀ (i : Instr) (s : State), s.fault = none →
    ∃ t, exec i s = .next t ∧
      (t.fault = none →
        match i with
        | .init => (newEvents s t).length = 2
        | .start => (newEvents s t).length = 6
        | .stop => (newEvents s t).length = 5
        | .wrb _ => (newEvents s t).length = 55
        | .rdb _ => (newEvents s t).length = 56
        | .gcr => (newEvents s t).length = 61 ∨ (newEvents s t).length = 116
        | .crc8 _ _ => (newEvents s t).length = 0
        | .chk _ _ _ => (newEvents s t).length = 0)

/-- R192: the minimum waiting time of each command, whatever the parameters of R5 are. -/
def Obligations.MinimumWaitingTimes : Prop :=
  ∀ s t : State, s.init = true →
    (exec .start s = .next t →
      waitingTime (newEvents s t) = Config.duration .startSetup + Config.duration .startHold) ∧
    (exec .stop s = .next t → waitingTime (newEvents s t) = Config.duration .stopSetup) ∧
    (∀ v, exec (.wrb v) s = .next t → waitingTime (newEvents s t) =
      9 * (Config.duration .dataSetup + Config.duration .clockHigh + Config.duration .dataHold)) ∧
    (∀ ack, exec (.rdb ack) s = .next t → waitingTime (newEvents s t) =
      9 * (Config.duration .dataSetup + Config.duration .clockHigh + Config.duration .dataHold)) ∧
    (exec .gcr s = .next t → waitingTime (newEvents s t) =
      Config.duration .startSetup + Config.duration .startHold +
        (if (newEvents s t).length = 61 then 9 else 18) *
          (Config.duration .dataSetup + Config.duration .clockHigh + Config.duration .dataHold))

/-- R182: in every `WRB` and `RDB`, a set-up wait comes directly before each clock release, a hold wait directly after each
clock pull-low, and each sample only after SDA was released and a set-up wait has passed. -/
def Obligations.SetupAndHoldOrderIsKept : Prop :=
  ∀ (i : Instr) (s t : State), (∃ v, i = .wrb v) ∨ (∃ ack, i = .rdb ack) → s.init = true → exec i s = .next t →
    setupBeforeRelease none (newEvents s t) = true ∧ holdAfterLow (newEvents s t) = true ∧
    samplesSettled none (newEvents s t) = true

/-- R25: commands only ever append to the trace. -/
def Obligations.TraceOnlyGrows : Prop :=
  ∀ s t : State, step s = .next t → ∃ es, t.trace = s.trace ++ es

/-- R24: the phase each command writes, that no other command writes it, and that no command behaves differently for it. -/
def Obligations.PhaseIsBookkeeping : Prop :=
  (∀ (i : Instr) (s t : State), exec i s = .next t → t.fault = none →
    match i with
    | .init => t.phase = .idle
    | .start => t.phase = .active
    | .stop => t.phase = .idle
    | .gcr => t.phase = .active
    | .wrb _ => t.phase = s.phase
    | .rdb _ => t.phase = s.phase
    | .crc8 _ _ => t.phase = s.phase
    | .chk _ _ _ => t.phase = s.phase) ∧
  ∀ (i : Instr) (s t : State) (p : Phase), exec i s = .next t →
    ∃ q, exec i { s with phase := p } = .next { t with phase := q }

/-- R24, R27, R28, R83: what a command adds to the trace, answers the host and leaves of the visible state does not depend
on the drive states, the phase, the earlier responses or the pending commands. -/
def Obligations.HiddenStateIsNotRead : Prop :=
  ∀ (i : Instr) (s s' t : State), SameView s s' → exec i s = .next t →
    ∃ t', exec i s' = .next t' ∧ SameView t t' ∧
      ∃ rs, t.responses = s.responses ++ rs ∧ t'.responses = s'.responses ++ rs

/-- R28, R64: a command that completes returns exactly one response, of the kind and among the values R64 lists. -/
def Obligations.ResponsesAreThoseOfTheCommand : Prop :=
  ∀ (i : Instr) (s t : State), exec i s = .next t → t.fault = none →
    ∃ r, t.responses = s.responses ++ [r] ∧
      match i with
      | .init => r = .none
      | .start => r = .none
      | .stop => r = .none
      | .wrb _ => r = .err 0x00 ∨ r = .err 0x01
      | .rdb _ => ∃ b, r = .byte b
      | .gcr => r = .err 0x00 ∨ r = .err 0x01
      | .crc8 _ _ => ∃ b, r = .byte b
      | .chk _ _ _ => r = .err 0x00 ∨ r = .err 0x02

/-! ### Invariants and host programs -/

/-- R22, R35: the invariant holds at reset. -/
def Obligations.InvariantHoldsAtReset : Prop := Inv State.reset

/-- R22, R24, R30, R80 to R82, R88, R90, R162: every step keeps the invariant, from every state that meets it. -/
def Obligations.StepKeepsTheInvariant : Prop :=
  ∀ s t : State, Inv s → step s = .next t → Inv t

/-- R23, R180: `init` becomes true by `INIT` alone, and nothing makes it false again; in particular no command returns an
initialised block to the reset state. -/
def Obligations.NothingUndoesInit : Prop :=
  (∀ (i : Instr) (s t : State), exec i s = .next t → (t.init = true ↔ s.init = true ∨ i = .init)) ∧
  ∀ s t : State, step s = .next t → s.init = true → t.init = true ∧ t ≠ State.reset

/-- R105, R167, R181: a host program that issues `INIT` first and never again, on a block that is not yet initialised, runs
to its end without a fault, one step and one response a command, whatever the environment answers. -/
def Obligations.ProgramsThatInitOnceNeverFault : Prop :=
  ∀ (prog : List Instr) (s : State), initOnce prog = true → s.fault = none → s.init = false →
    s.cmds = prog.map encode →
    ∃ t, Host.Core.run core prog.length s = .next t ∧ t.fault = none ∧ t.cmds = [] ∧
      t.responses.length = s.responses.length + prog.length ∧ (prog ≠ [] → t.init = true)

/-- R91, R183: in a host program that issues `WRB` and `RDB` only inside transactions, no such command makes a start or stop
condition: every SDA event of it is a data change. -/
def Obligations.BytesInsideTransactionsAreData : Prop :=
  ∀ (i : Instr) (is : List Instr) (s t : State), Inv s → s.init = true →
    (∃ v, i = .wrb v) ∨ (∃ ack, i = .rdb ack) → bytesInside s.phase (i :: is) = true → exec i s = .next t →
    ∀ c ∈ sdaConditions s.drv (newEvents s t), c = some .dataChange

/-- R145, R183, R184, R188: an operation of the grammar expands to commands that keep the host's rules: bytes only inside
the transaction, no general call left open, and the last byte of its read not acknowledged before the next framing command.
How the rules are written as predicates is the model's reading (notes/assumptions/14.md). -/
def Obligations.OperationsKeepTheHostRules : Prop :=
  ∀ (addr : BitVec 7) (b0 b1 c : Byte) (ps : List Pseudo), isOperation ps = true →
    bytesInside .idle (ps.flatMap (expansion addr b0 b1 c)) = true ∧
    closesGeneralCall false (ps.flatMap (expansion addr b0 b1 c)) = true ∧
    (ps.flatMap (expansion addr b0 b1 c)).foldl phaseAfter .idle = .idle ∧
    lastReadUnacked false (ps.flatMap (expansion addr b0 b1 c)) = true

/-- R185, R52: `serialized` holds exactly when every command from a `START` or `GCR` to its `STOP` comes from the opener's
thread; a program of one thread always meets it; and what it counts as an open transaction is what the block's own phase
says (R24). That `GCR` opens a transaction here, and `STOP` alone closes one, is the model's reading
(notes/assumptions/14.md). -/
def Obligations.SerializedIsOneThreadPerTransaction : Prop :=
  (∀ prog : List (Nat × Instr), serialized none prog = true ↔
    ∀ (pre mid post : List (Nat × Instr)) (t u : Nat) (o i : Instr),
      prog = pre ++ (t, o) :: mid ++ (u, i) :: post → o = .start ∨ o = .gcr → (∀ q ∈ mid, q.2 ≠ .stop) → u = t) ∧
  (∀ (thread : Nat) (is : List Instr), serialized none (is.map fun i => (thread, i)) = true) ∧
  ∀ (owner : Option Nat) (thread : Nat) (i : Instr) (s t : State), s.init = true →
    exec i s = .next t → t.fault = none → (s.phase = .active ↔ owner ≠ none) →
    (t.phase = .active ↔ ownerAfter owner thread i ≠ none)

/-! ### CRC-8 -/

/-- R120: the checksum function, by its recursion over bytes: initial value `0xFF`, exclusive-or and 8 iterations a byte; an
iteration shifts left and, only if bit 7 was set, applies the polynomial; bit 8 of the 9-bit intermediate is always 0. -/
def Obligations.CrcIsTheShiftRegister : Prop :=
  crc8 [] = 0xFF ∧
  (∀ (ds : List Byte) (d : Byte), crc8 (ds ++ [d]) = crcStep (crcStep (crcStep (crcStep
    (crcStep (crcStep (crcStep (crcStep (crc8 ds ^^^ d)))))))) ) ∧
  ∀ c : Byte,
    crcStep c = (if c.getLsbD 7 then (c <<< 1) ^^^ 0x31 else c <<< 1) ∧
    crcShift c = (if c.getLsbD 7 then (c.setWidth 9 <<< 1) ^^^ 0x131 else c.setWidth 9 <<< 1) ∧
    (crcShift c).getLsbD 8 = false

/-- R123: the table-driven validator returns the value of the bitwise loop on every input. -/
def Obligations.TableDrivenCrcIsTheSameFunction : Prop :=
  ∀ ds : List Byte, crc8ByTable ds = crc8 ds

/-- R124: round trip, detection of every single-bit corruption of the payload, and of the checksum byte. -/
def Obligations.ChkCatchesEverySingleBitError : Prop :=
  ∀ (b0 b1 : Byte) (s : State), s.fault = none → s.init = true →
    exec (.chk b0 b1 (crc8 [b0, b1])) s = .next { s with responses := s.responses ++ [.err 0x00] } ∧
    (∀ p < 16, ∀ c0 c1 : Byte, wordOf c0 c1 = wordOf b0 b1 ^^^ (1 <<< p) →
      crc8 [c0, c1] ≠ crc8 [b0, b1] ∧
      exec (.chk c0 c1 (crc8 [b0, b1])) s = .next { s with responses := s.responses ++ [.err 0x02] }) ∧
    ∀ q < 8, exec (.chk b0 b1 (crc8 [b0, b1] ^^^ (1 <<< q))) s =
      .next { s with responses := s.responses ++ [.err 0x02] }

/-- R124: the checksum of a two-byte word is affine over GF(2), with the linear part `L(y) = crc8(y) ^ crc8(0, 0)`. -/
def Obligations.CrcIsAffine : Prop :=
  ∀ x0 x1 y0 y1 : Byte,
    crc8 [x0 ^^^ y0, x1 ^^^ y1] = crc8 [x0, x1] ^^^ (crc8 [y0, y1] ^^^ crc8 [0x00, 0x00])

/-! ### Addresses, errors and access sequences -/

/-- R41: the address byte carries the 7-bit address above the direction bit. -/
def Obligations.AddressByteCarriesAddressAndDirection : Prop :=
  ∀ (a : BitVec 7) (rw : Bool),
    (addrByte a rw).extractLsb' 1 7 = a ∧ (addrByte a rw).getLsbD 0 = rw

/-- R30, R146: merged errors are Ok exactly when both are, merging keeps each flag of either, and the three flags are
different bits. -/
def Obligations.MergedErrorsKeepEveryFlag : Prop :=
  (∀ a b : Byte, isOk (mergeErr a b) = (isOk a && isOk b)) ∧
  (∀ (a b : Byte) (i : Nat), (mergeErr a b).getLsbD i = (a.getLsbD i || b.getLsbD i)) ∧
  errAckMissing = 1 <<< 0 ∧ errChecksum = 1 <<< 1 ∧ errTimeout = 1 <<< 2 ∧ errOk = 0

/-- R140, R141: `BWA` and `BRA` make a start condition and send the address byte with the direction bit clear or set; the
acknowledge is the result. -/
def Obligations.BeginAccessSendsTheAddressByte : Prop :=
  ∀ (addr : BitVec 7) (s : State), s.fault = none → s.init = true →
    (∀ a, a = envDraw s.envAnswers (traceAtAck (addrByte addr false) (s.trace ++ startEvents)) →
      bwa addr s = .next (if a then 0x01 else 0x00, { s with
        drv := ⟨.rel, .low⟩
        phase := .active
        trace := s.trace ++ startEvents ++ wrbEvents (addrByte addr false) a
        envAnswers := s.envAnswers.tail
        responses := s.responses ++ [.none, .err (if a then 0x01 else 0x00)] })) ∧
    (∀ a, a = envDraw s.envAnswers (traceAtAck (addrByte addr true) (s.trace ++ startEvents)) →
      bra addr s = .next (if a then 0x01 else 0x00, { s with
        drv := ⟨.rel, .low⟩
        phase := .active
        trace := s.trace ++ startEvents ++ wrbEvents (addrByte addr true) a
        envAnswers := s.envAnswers.tail
        responses := s.responses ++ [.none, .err (if a then 0x01 else 0x00)] }))

/-- R142: `ENDA` is `STOP` and returns nothing. -/
def Obligations.EndAccessIsStop : Prop :=
  ∀ s : State, s.fault = none → s.init = true →
    ∃ t, exec .stop s = .next t ∧ enda s = .next ((), t) ∧ execPseudo .enda s = .next (.nothing, t)

/-- R143: `SCMD k` always sends both bytes, high byte first, and its result is the OR of the two. -/
def Obligations.SendCommandAlwaysSendsBothBytes : Prop :=
  ∀ (k : BitVec 16) (s : State), s.fault = none → s.init = true →
    ∀ a1 a2 : Bool, a1 = envDraw s.envAnswers (traceAtAck (k.extractLsb' 8 8) s.trace) →
      a2 = envDraw s.envAnswers.tail
        (traceAtAck (k.extractLsb' 0 8) (s.trace ++ wrbEvents (k.extractLsb' 8 8) a1)) →
      scmd k s = .next (if a1 || a2 then 0x01 else 0x00, { s with
        drv := ⟨.rel, .low⟩
        trace := s.trace ++ wrbEvents (k.extractLsb' 8 8) a1 ++ wrbEvents (k.extractLsb' 0 8) a2
        envAnswers := s.envAnswers.tail.tail
        responses := s.responses ++
          [.err (if a1 then 0x01 else 0x00), .err (if a2 then 0x01 else 0x00)] })

/-- R144: `RDWC fa` reads three bytes, acknowledges the first two and the third only if `fa`, and checks them. If they agree
its value is the two data bytes, high byte first, and its error Ok; otherwise its error is ChecksumMismatch and nothing is
said of the value. The time-out operand has no effect. -/
def Obligations.ReadWordChecksItsBytes : Prop :=
  (∀ (fa : Bool) (s : State), s.fault = none → s.init = true →
    ∃ (b0 b1 c : Byte) (x0 x1 x2 : List Bool) (value : BitVec 16) (e : Byte) (t : State),
      x0 = drawnBits 8 s.envAnswers (s.trace ++ [.rel .sda]) ∧ b0 = byteOfBits x0 ∧
      x1 = drawnBits 8 (s.envAnswers.drop 8) (s.trace ++ rdbEvents x0 true ++ [.rel .sda]) ∧ b1 = byteOfBits x1 ∧
      x2 = drawnBits 8 (s.envAnswers.drop 16)
        (s.trace ++ rdbEvents x0 true ++ rdbEvents x1 true ++ [.rel .sda]) ∧ c = byteOfBits x2 ∧
      rdwc fa s = .next ((value, e), t) ∧
      t = { s with
        drv := ⟨.rel, .low⟩
        trace := s.trace ++ rdbEvents x0 true ++ rdbEvents x1 true ++ rdbEvents x2 fa
        envAnswers := s.envAnswers.drop 24
        responses := s.responses ++ [.byte b0, .byte b1, .byte c, .err e] } ∧
      (crc8 [b0, b1] = c → e = 0x00 ∧ value = (b0.setWidth 16 <<< 8) ||| b1.setWidth 16) ∧
      (crc8 [b0, b1] ≠ c → e = 0x02)) ∧
  ∀ (fa : Bool) (x y : Option Nat) (s : State), execPseudo (.rdwc fa x) s = execPseudo (.rdwc fa y) s

/-- R145, D30: an operation always ends, whatever the environment answers, and ends with the bus closed: its last events are
those of `STOP`, both lines are released and no transaction is open. -/
def Obligations.OperationsAlwaysCloseTheBus : Prop :=
  ∀ (p : ReadPolicy) (addr : BitVec 7) (k : BitVec 16) (words : Nat) (s : State), s.fault = none → s.init = true →
    ∃ (r : List (BitVec 16) × Byte) (t : State) (es : List Event),
      operation p addr k words s = .next (r, t) ∧
      t.trace = s.trace ++ es ++ [.low .scl, .low .sda, .rel .scl, .wait .stopSetup, .rel .sda] ∧
      t.drv = ⟨.rel, .rel⟩ ∧ t.phase = .idle ∧ t.fault = none ∧ t.init = true ∧ t.cmds = s.cmds

/-- R145: when the device does not acknowledge its address, every later step but the closing one is skipped, and the result
is AcknowledgeMissing with no word read. -/
def Obligations.OperationsSkipAfterAMissingAck : Prop :=
  ∀ (p : ReadPolicy) (addr : BitVec 7) (k : BitVec 16) (words : Nat) (s : State), s.fault = none → s.init = true →
    envDraw s.envAnswers (traceAtAck (addrByte addr false) (s.trace ++ startEvents)) = true →
    operation p addr k words s = .next (([], 0x01), { s with
      drv := ⟨.rel, .rel⟩
      phase := .idle
      trace := s.trace ++ startEvents ++ wrbEvents (addrByte addr false) true ++ stopEvents
      envAnswers := s.envAnswers.tail
      responses := s.responses ++ [.none, .err 0x01, .none] })

/-- R184, R145: an operation that reads all its words reads its last byte without acknowledge directly before the events of
`STOP`; under `readAll` it reads either every word or none. Under `skipAfterFailure` a failed word that is not the last
ends the read early, which is the model's choice (notes/assumptions/13.md). -/
def Obligations.CompletedReadsEndUnacknowledged : Prop :=
  ∀ (p : ReadPolicy) (addr : BitVec 7) (k : BitVec 16) (words : Nat) (s : State), s.fault = none → s.init = true →
    ∃ (r : List (BitVec 16) × Byte) (t : State), operation p addr k words s = .next (r, t) ∧
      (p = .readAll → r.1 = [] ∨ r.1.length = words) ∧
      (0 < words → r.1.length = words →
        ∃ (es : List Event) (bits : List Bool), bits.length = 8 ∧
          t.trace = s.trace ++ es ++ rdbEvents bits false ++ stopEvents)

/-- R192 (the clock pulses column), R84: the calls of `Pulse` in each command, whatever the state it starts from. That the
column counts calls of `Pulse` is the model's choice (notes/assumptions/17.md). -/
def Obligations.PulseCallsOfEachCommand : Prop :=
  ∀ (i : Instr) (s : State), s.fault = none →
    ∃ t, exec i s = .next t ∧
      (t.fault = none →
        match i with
        | .init => pulseCalls none (newEvents s t) = 0
        | .start => pulseCalls none (newEvents s t) = 0
        | .stop => pulseCalls none (newEvents s t) = 0
        | .wrb _ => pulseCalls none (newEvents s t) = 9
        | .rdb _ => pulseCalls none (newEvents s t) = 9
        | .gcr => pulseCalls none (newEvents s t) = if (newEvents s t).length = 61 then 9 else 18
        | .crc8 _ _ => pulseCalls none (newEvents s t) = 0
        | .chk _ _ _ => pulseCalls none (newEvents s t) = 0)
end

