-- ==== Sys2Proof/Laws/State.lean ====
section
/-! SUPPORT. What each update of the state leaves in each field: one lemma per field per update. -/

namespace Sys2Proof.Machine

@[simp] theorem append_drv (e : Event) (s : State) : (append e s).drv = s.drv := rfl
@[simp] theorem append_init (e : Event) (s : State) : (append e s).init = s.init := rfl
@[simp] theorem append_phase (e : Event) (s : State) : (append e s).phase = s.phase := rfl
@[simp] theorem append_trace (e : Event) (s : State) : (append e s).trace = s.trace ++ [e] := rfl
@[simp] theorem append_fault (e : Event) (s : State) : (append e s).fault = s.fault := rfl
@[simp] theorem append_cmds (e : Event) (s : State) : (append e s).cmds = s.cmds := rfl
@[simp] theorem append_responses (e : Event) (s : State) : (append e s).responses = s.responses := rfl
@[simp] theorem append_envAnswers (e : Event) (s : State) : (append e s).envAnswers = s.envAnswers := rfl

@[simp] theorem setDrive_drv (l : Line) (x : Drive) (s : State) : (setDrive l x s).drv = withDrive s.drv l x := rfl
@[simp] theorem setDrive_init (l : Line) (x : Drive) (s : State) : (setDrive l x s).init = s.init := rfl
@[simp] theorem setDrive_phase (l : Line) (x : Drive) (s : State) : (setDrive l x s).phase = s.phase := rfl
@[simp] theorem setDrive_trace (l : Line) (x : Drive) (s : State) : (setDrive l x s).trace = s.trace := rfl
@[simp] theorem setDrive_fault (l : Line) (x : Drive) (s : State) : (setDrive l x s).fault = s.fault := rfl
@[simp] theorem setDrive_cmds (l : Line) (x : Drive) (s : State) : (setDrive l x s).cmds = s.cmds := rfl
@[simp] theorem setDrive_responses (l : Line) (x : Drive) (s : State) : (setDrive l x s).responses = s.responses := rfl
@[simp] theorem setDrive_envAnswers (l : Line) (x : Drive) (s : State) : (setDrive l x s).envAnswers = s.envAnswers := rfl

@[simp] theorem setInit_drv (s : State) : (setInit s).drv = s.drv := rfl
@[simp] theorem setInit_init (s : State) : (setInit s).init = true := rfl
@[simp] theorem setInit_phase (s : State) : (setInit s).phase = s.phase := rfl
@[simp] theorem setInit_trace (s : State) : (setInit s).trace = s.trace := rfl
@[simp] theorem setInit_fault (s : State) : (setInit s).fault = s.fault := rfl
@[simp] theorem setInit_cmds (s : State) : (setInit s).cmds = s.cmds := rfl
@[simp] theorem setInit_responses (s : State) : (setInit s).responses = s.responses := rfl
@[simp] theorem setInit_envAnswers (s : State) : (setInit s).envAnswers = s.envAnswers := rfl

@[simp] theorem setPhase_drv (p : Phase) (s : State) : (setPhase p s).drv = s.drv := rfl
@[simp] theorem setPhase_init (p : Phase) (s : State) : (setPhase p s).init = s.init := rfl
@[simp] theorem setPhase_phase (p : Phase) (s : State) : (setPhase p s).phase = p := rfl
@[simp] theorem setPhase_trace (p : Phase) (s : State) : (setPhase p s).trace = s.trace := rfl
@[simp] theorem setPhase_fault (p : Phase) (s : State) : (setPhase p s).fault = s.fault := rfl
@[simp] theorem setPhase_cmds (p : Phase) (s : State) : (setPhase p s).cmds = s.cmds := rfl
@[simp] theorem setPhase_responses (p : Phase) (s : State) : (setPhase p s).responses = s.responses := rfl
@[simp] theorem setPhase_envAnswers (p : Phase) (s : State) : (setPhase p s).envAnswers = s.envAnswers := rfl

@[simp] theorem dropAnswer_drv (s : State) : (dropAnswer s).drv = s.drv := rfl
@[simp] theorem dropAnswer_init (s : State) : (dropAnswer s).init = s.init := rfl
@[simp] theorem dropAnswer_phase (s : State) : (dropAnswer s).phase = s.phase := rfl
@[simp] theorem dropAnswer_trace (s : State) : (dropAnswer s).trace = s.trace := rfl
@[simp] theorem dropAnswer_fault (s : State) : (dropAnswer s).fault = s.fault := rfl
@[simp] theorem dropAnswer_cmds (s : State) : (dropAnswer s).cmds = s.cmds := rfl
@[simp] theorem dropAnswer_responses (s : State) : (dropAnswer s).responses = s.responses := rfl
@[simp] theorem dropAnswer_envAnswers (s : State) : (dropAnswer s).envAnswers = s.envAnswers.tail := rfl

@[simp] theorem raise_drv (f : Fault) (s : State) : (raise f s).drv = s.drv := rfl
@[simp] theorem raise_init (f : Fault) (s : State) : (raise f s).init = s.init := rfl
@[simp] theorem raise_phase (f : Fault) (s : State) : (raise f s).phase = s.phase := rfl
@[simp] theorem raise_trace (f : Fault) (s : State) : (raise f s).trace = s.trace := rfl
@[simp] theorem raise_fault (f : Fault) (s : State) : (raise f s).fault = some f := rfl
@[simp] theorem raise_cmds (f : Fault) (s : State) : (raise f s).cmds = s.cmds := rfl
@[simp] theorem raise_responses (f : Fault) (s : State) : (raise f s).responses = s.responses := rfl
@[simp] theorem raise_envAnswers (f : Fault) (s : State) : (raise f s).envAnswers = s.envAnswers := rfl

@[simp] theorem respond_drv (r : Response) (s : State) : (respond r s).drv = s.drv := rfl
@[simp] theorem respond_init (r : Response) (s : State) : (respond r s).init = s.init := rfl
@[simp] theorem respond_phase (r : Response) (s : State) : (respond r s).phase = s.phase := rfl
@[simp] theorem respond_trace (r : Response) (s : State) : (respond r s).trace = s.trace := rfl
@[simp] theorem respond_fault (r : Response) (s : State) : (respond r s).fault = s.fault := rfl
@[simp] theorem respond_cmds (r : Response) (s : State) : (respond r s).cmds = s.cmds := rfl
@[simp] theorem respond_responses (r : Response) (s : State) : (respond r s).responses = s.responses ++ [r] := rfl
@[simp] theorem respond_envAnswers (r : Response) (s : State) : (respond r s).envAnswers = s.envAnswers := rfl

@[simp] theorem present_drv (w : Word) (s : State) : (present w s).drv = s.drv := rfl
@[simp] theorem present_init (w : Word) (s : State) : (present w s).init = s.init := rfl
@[simp] theorem present_phase (w : Word) (s : State) : (present w s).phase = s.phase := rfl
@[simp] theorem present_trace (w : Word) (s : State) : (present w s).trace = s.trace := rfl
@[simp] theorem present_fault (w : Word) (s : State) : (present w s).fault = s.fault := rfl
@[simp] theorem present_cmds (w : Word) (s : State) : (present w s).cmds = w :: s.cmds := rfl
@[simp] theorem present_responses (w : Word) (s : State) : (present w s).responses = s.responses := rfl
@[simp] theorem present_envAnswers (w : Word) (s : State) : (present w s).envAnswers = s.envAnswers := rfl

@[simp] theorem withDrive_sda_sda (d : Drv) (x : Drive) : (withDrive d .sda x).sda = x := rfl
@[simp] theorem withDrive_sda_scl (d : Drv) (x : Drive) : (withDrive d .sda x).scl = d.scl := rfl
@[simp] theorem withDrive_scl_sda (d : Drv) (x : Drive) : (withDrive d .scl x).sda = d.sda := rfl
@[simp] theorem withDrive_scl_scl (d : Drv) (x : Drive) : (withDrive d .scl x).scl = x := rfl

end Sys2Proof.Machine
end

