-- ==== Sys2Proof/Laws/Ops.lean ====
section
/-! SUPPORT. One lemma per shared operation, saying once all it does: the primitives and the pulse (R80 to R84), the byte
transfers as the event lists of R102 and R103, and what a command answers past its checks (R162 to R164). -/

namespace Sys2Proof.Machine

/-- `Pulse(false)` adds its 5 events and ends with SCL low (R84). -/
theorem pulse_eq (s : State) :
    pulse s = { s with drv := ⟨s.drv.sda, .low⟩, trace := s.trace ++ (riseEvents ++ fallEvents) } := by
  simp [pulse, pulseFall, pulseRise, wait, release, driveLow, append, setDrive, withDrive, riseEvents, fallEvents]

/-- `Pulse(true)` with SDA released returns the environment's draw at the sample point and adds its 6 events (R83, R84). -/
theorem pulseSample_eq (s : State) (h : s.drv.sda = .rel) :
    pulseSample s = (envDraw s.envAnswers (s.trace ++ riseEvents),
      { s with
        drv := ⟨.rel, .low⟩
        trace := s.trace ++ sampledBit (envDraw s.envAnswers (s.trace ++ riseEvents))
        envAnswers := s.envAnswers.tail }) := by
  simp [pulseSample, sample, pulseFall, pulseRise, wait, release, driveLow, append, setDrive, withDrive, dropAnswer,
    riseEvents, fallEvents, sampledBit, h]

/-- Writing a level adds its one event (R11). -/
theorem writeLevel_eq (b : Bool) (s : State) :
    writeLevel b s =
      { s with drv := ⟨if b then .rel else .low, s.drv.scl⟩, trace := s.trace ++ [levelEvent b] } := by
  cases b <;> simp [writeLevel, release, driveLow, append, setDrive, withDrive, levelEvent]

/-- One written bit is its level and a pulse (R100, R102). -/
theorem writeBit_eq (b : Bool) (s : State) :
    pulse (writeLevel b s) =
      { s with drv := ⟨if b then .rel else .low, .low⟩, trace := s.trace ++ writtenBit b } := by
  simp [pulse_eq, writeLevel_eq, writtenBit]

/-- The loop of `WRB` adds the 48 events of the 8 data bits, most significant first (R102). -/
theorem sendBits_eq (v : Byte) (s : State) :
    sendBits 8 v s =
      { s with drv := ⟨if v.getLsbD 0 then .rel else .low, .low⟩, trace := s.trace ++ writtenByte v } := by
  simp [sendBits, writeBit_eq, writtenByte, bitsMSB, List.append_assoc]

/-- The body of `WRB` from any state: 55 events, one draw, SDA released and SCL low (R100, R102). -/
theorem sendByte_eq (v : Byte) (s : State) :
    sendByte v s = (envDraw s.envAnswers (traceAtAck v s.trace),
      { s with
        drv := ⟨.rel, .low⟩
        trace := s.trace ++ wrbEvents v (envDraw s.envAnswers (traceAtAck v s.trace))
        envAnswers := s.envAnswers.tail }) := by
  simp only [sendByte, sendBits_eq]
  rw [pulseSample_eq _ (by simp [release])]
  simp [release, append, setDrive, wrbEvents, traceAtAck, List.append_assoc]

/-- `n` sampled pulses from a state with SDA released (R101): the bits drawn, placed from bit `n-1` down. -/
def placeBits : Nat → Byte → List Bool → Byte
  | n + 1, rx, b :: bs => placeBits n (setBit rx n b) bs
  | _, rx, _ => rx

/-- The loop of `RDB`: the drawn bits, 6 events each (R101, R103). -/
theorem receiveBits_eq (n : Nat) (rx : Byte) (s : State) (h : s.drv.sda = .rel) (hn : 0 < n) :
    receiveBits n rx s = (placeBits n rx (drawnBits n s.envAnswers s.trace),
      { s with
        drv := ⟨.rel, .low⟩
        trace := s.trace ++ (drawnBits n s.envAnswers s.trace).flatMap sampledBit
        envAnswers := s.envAnswers.drop n }) := by
  induction n generalizing rx s with
  | zero => omega
  | succ n ih =>
    rw [receiveBits, pulseSample_eq s h]
    rcases Nat.eq_zero_or_pos n with rfl | hn
    · simp [receiveBits, drawnBits, placeBits]
    · rw [ih _ _ rfl hn]
      simp [drawnBits, placeBits, List.append_assoc]

/-- As many bits are drawn as pulses sampled. -/
theorem length_drawnBits (n : Nat) (as : List Bool) (tr : List Event) : (drawnBits n as tr).length = n := by
  induction n generalizing as tr with
  | zero => rfl
  | succ n ih => simp [drawnBits, ih]

/-- Eight bits placed from bit 7 down are the byte they spell (R44, R101). -/
theorem placeBits_eight (bs : List Bool) (h : bs.length = 8) : placeBits 8 0 bs = byteOfBits bs := by
  match bs, h with
  | [a, b, c, d, e, f, g, i], _ =>
    revert a b c d e f g i
    decide

/-- The body of `RDB` from any state: 56 events, 8 draws, SDA released and SCL low (R101, R103). -/
theorem receiveByte_eq (ack : Bool) (s : State) :
    receiveByte ack s = (byteOfBits (drawnBits 8 s.envAnswers (s.trace ++ [.rel .sda])),
      { s with
        drv := ⟨.rel, .low⟩
        trace := s.trace ++ rdbEvents (drawnBits 8 s.envAnswers (s.trace ++ [.rel .sda])) ack
        envAnswers := s.envAnswers.drop 8 }) := by
  simp only [receiveByte]
  rw [receiveBits_eq 8 _ _ (by simp [release]) (by omega)]
  have h := placeBits_eight (drawnBits 8 s.envAnswers (s.trace ++ [.rel .sda])) (length_drawnBits ..)
  simp [release, append, setDrive, writeBit_eq, withDrive, rdbEvents, writtenBit, List.append_assoc] at h ⊢
  exact h

/-- The body of `START` from any state (R86). -/
theorem startBody_eq (s : State) :
    startBody s = { s with drv := ⟨.low, .low⟩, phase := .active, trace := s.trace ++ startEvents } := by
  simp [startBody, release, driveLow, wait, append, setDrive, setPhase, withDrive, startEvents]

/-- The body of `STOP` from any state (R87). -/
theorem stopBody_eq (s : State) :
    stopBody s = { s with drv := ⟨.rel, .rel⟩, phase := .idle, trace := s.trace ++ stopEvents } := by
  simp [stopBody, release, driveLow, wait, append, setDrive, setPhase, withDrive, stopEvents]

/-- The body of `INIT` from any state (R85). -/
theorem initBody_eq (s : State) :
    initBody s = { s with drv := ⟨.rel, .rel⟩, init := true, phase := .idle, trace := s.trace ++ initEvents } := by
  simp [initBody, release, append, setDrive, setInit, setPhase, withDrive, initEvents]

/-- A check passes only a block without a fault (R163). -/
theorem whenSound_next {s : State} {k : Result} {t : State} (h : whenSound s k = .next t) :
    s.fault = none ∧ k = .next t := by
  unfold whenSound at h
  split at h
  · cases h
  · exact ⟨‹_›, h⟩

/-- What a command that needs `init` can answer (R162, R164): the fault of a faulted block, a recorded `NotInitialized`, or
its body's state with its response. -/
theorem afterInit_cases (op : Mnemonic) (body : State → Response × State) (s : State) :
    (∃ f, s.fault = some f ∧ afterInit op body s = .fault f) ∨
    (s.fault = none ∧ s.init = false ∧ afterInit op body s = .next (raise (.notInitialized op) s)) ∨
    (s.fault = none ∧ s.init = true ∧ afterInit op body s = .next (respond (body s).1 (body s).2)) := by
  unfold afterInit whenSound
  cases hf : s.fault with
  | some f => exact .inl ⟨f, rfl, rfl⟩
  | none => cases hi : s.init <;> simp

/-- What `INIT` can answer (R85, R162, R164). -/
theorem beforeInit_cases (body : State → Response × State) (s : State) :
    (∃ f, s.fault = some f ∧ beforeInit body s = .fault f) ∨
    (s.fault = none ∧ s.init = true ∧ beforeInit body s = .next (raise .reInit s)) ∨
    (s.fault = none ∧ s.init = false ∧ beforeInit body s = .next (respond (body s).1 (body s).2)) := by
  unfold beforeInit whenSound
  cases hf : s.fault with
  | some f => exact .inl ⟨f, rfl, rfl⟩
  | none => cases hi : s.init <;> simp

end Sys2Proof.Machine
end

