-- ==== Sys2Proof/Laws/Trace.lean ====
section
/-! SUPPORT. What replaying the listed event sequences does to the drive states (R88, R90), and their lengths (R105). -/

namespace Sys2Proof.Machine

@[simp] theorem replay_nil (d : Drv) : replay d [] = d := rfl

@[simp] theorem replay_cons (d : Drv) (e : Event) (es : List Event) :
    replay d (e :: es) = replay (driveEvent d e) es := rfl

@[simp] theorem replay_append (d : Drv) (xs ys : List Event) :
    replay d (xs ++ ys) = replay (replay d xs) ys := List.foldl_append ..

@[simp] theorem driveEvent_wait (d : Drv) (p : Duration) : driveEvent d (.wait p) = d := rfl

@[simp] theorem driveEvent_smp (d : Drv) (v : Bool) : driveEvent d (.smp v) = d := rfl

@[simp] theorem driveEvent_low_sda (d : Drv) : driveEvent d (.low .sda) = ⟨.low, d.scl⟩ := rfl

@[simp] theorem driveEvent_low_scl (d : Drv) : driveEvent d (.low .scl) = ⟨d.sda, .low⟩ := rfl

@[simp] theorem driveEvent_rel_sda (d : Drv) : driveEvent d (.rel .sda) = ⟨.rel, d.scl⟩ := rfl

@[simp] theorem driveEvent_rel_scl (d : Drv) : driveEvent d (.rel .scl) = ⟨d.sda, .rel⟩ := rfl

/-- A written bit ends with SCL low and SDA at its level. -/
theorem replay_writtenBit (d : Drv) (b : Bool) : replay d (writtenBit b) = ⟨if b then .rel else .low, .low⟩ := by
  cases b <;> simp [writtenBit, levelEvent, riseEvents, fallEvents]

/-- A sampled bit ends with SCL low and leaves SDA. -/
theorem replay_sampledBit (d : Drv) (b : Bool) : replay d (sampledBit b) = ⟨d.sda, .low⟩ := by
  simp [sampledBit, riseEvents, fallEvents]

/-- A run of sampled bits leaves SDA. -/
theorem replay_sampledBits_sda (d : Drv) (bs : List Bool) : (replay d (bs.flatMap sampledBit)).sda = d.sda := by
  induction bs generalizing d with
  | nil => rfl
  | cons b bs ih => simp [replay_sampledBit, ih]

theorem replay_initEvents (d : Drv) : replay d initEvents = ⟨.rel, .rel⟩ := by simp [initEvents]

theorem replay_startEvents (d : Drv) : replay d startEvents = ⟨.low, .low⟩ := by simp [startEvents]

theorem replay_stopEvents (d : Drv) : replay d stopEvents = ⟨.rel, .rel⟩ := by simp [stopEvents]

/-- `WRB` ends with SDA released and SCL low (R90). -/
theorem replay_wrbEvents (d : Drv) (v : Byte) (a : Bool) : replay d (wrbEvents v a) = ⟨.rel, .low⟩ := by
  simp [wrbEvents, replay_sampledBit]

/-- `RDB` ends with SDA released and SCL low (R90). -/
theorem replay_rdbEvents (d : Drv) (bs : List Bool) (ack : Bool) : replay d (rdbEvents bs ack) = ⟨.rel, .low⟩ := by
  simp [rdbEvents, riseEvents, fallEvents]

@[simp] theorem length_writtenBit (b : Bool) : (writtenBit b).length = 6 := rfl

@[simp] theorem length_sampledBit (b : Bool) : (sampledBit b).length = 6 := rfl

/-- The 55 events of `WRB` (R102). -/
theorem length_wrbEvents (v : Byte) (a : Bool) : (wrbEvents v a).length = 55 := by
  simp [wrbEvents, writtenByte, bitsMSB]

/-- The 56 events of `RDB` (R103). -/
theorem length_rdbEvents (bs : List Bool) (ack : Bool) (h : bs.length = 8) : (rdbEvents bs ack).length = 56 := by
  simp [rdbEvents, riseEvents, fallEvents, h]

/-! Counts of clock edges and samples in a bit's events (R102, R103). -/

theorem count_relScl_writtenBit (b : Bool) : (writtenBit b).count (.rel .scl) = 1 := by cases b <;> decide

theorem count_lowScl_writtenBit (b : Bool) : (writtenBit b).count (.low .scl) = 1 := by cases b <;> decide

theorem count_smp_writtenBit (a b : Bool) : (writtenBit b).count (.smp a) = 0 := by cases a <;> cases b <;> decide

theorem count_relScl_sampledBit (b : Bool) : (sampledBit b).count (.rel .scl) = 1 := by cases b <;> decide

theorem count_lowScl_sampledBit (b : Bool) : (sampledBit b).count (.low .scl) = 1 := by cases b <;> decide

theorem count_smp_sampledBit (b : Bool) :
    (sampledBit b).count (.smp true) + (sampledBit b).count (.smp false) = 1 := by cases b <;> decide

/-! Calls of `Pulse` (R84, R192): one for each bit, and none in the events of a framing command. -/

@[simp] theorem pulseCalls_nil (b : Option Event) : pulseCalls b [] = 0 := rfl

@[simp] theorem pulseCalls_writtenBit (b : Option Event) (x : Bool) (es : List Event) :
    pulseCalls b (writtenBit x ++ es) = 1 + pulseCalls (some (.wait .dataHold)) es := by
  cases x <;> simp [writtenBit, levelEvent, riseEvents, fallEvents, pulseCalls]

@[simp] theorem pulseCalls_sampledBit (b : Option Event) (x : Bool) (es : List Event) :
    pulseCalls b (sampledBit x ++ es) = 1 + pulseCalls (some (.wait .dataHold)) es := by
  simp [sampledBit, riseEvents, fallEvents, pulseCalls]

/-- A run of sampled bits calls `Pulse` once a bit. -/
theorem pulseCalls_sampledBits (bs : List Bool) (es : List Event) :
    pulseCalls (some (.wait .dataHold)) (bs.flatMap sampledBit ++ es) =
      bs.length + pulseCalls (some (.wait .dataHold)) es := by
  induction bs with
  | nil => simp
  | cons x bs ih =>
    simp [ih]
    omega

@[simp] theorem pulseCalls_startEvents (b : Option Event) (es : List Event) :
    pulseCalls b (startEvents ++ es) = pulseCalls (some (.low .scl)) es := by
  simp [startEvents, pulseCalls]

/-- `WRB` calls `Pulse` nine times, whatever comes before it. -/
theorem pulseCalls_wrbEvents (b : Option Event) (v : Byte) (a : Bool) (es : List Event) :
    pulseCalls b (wrbEvents v a ++ es) = 9 + pulseCalls (some (.wait .dataHold)) es := by
  have shape : wrbEvents v a ++ es = writtenByte v ++ (.rel .sda :: (sampledBit a ++ es)) := by simp [wrbEvents]
  have tail : pulseCalls (some (.wait .dataHold)) (.rel .sda :: (sampledBit a ++ es)) =
      1 + pulseCalls (some (.wait .dataHold)) es := by simp [pulseCalls]
  simp only [shape, writtenByte, bitsMSB, List.flatMap_cons, List.flatMap_nil, List.append_assoc, List.nil_append,
    pulseCalls_writtenBit, tail]
  omega

/-- `RDB` calls `Pulse` once for each bit and once for the acknowledge. -/
theorem pulseCalls_rdbEvents (bs : List Bool) (ack : Bool) :
    pulseCalls none (rdbEvents bs ack) = bs.length + 1 := by
  cases bs with
  | nil => cases ack <;> simp [rdbEvents, levelEvent, riseEvents, fallEvents, pulseCalls]
  | cons x bs =>
    have ninth : pulseCalls (some (.wait .dataHold))
        (levelEvent (!ack) :: (riseEvents ++ (fallEvents ++ [.rel .sda]))) = 1 := by
      cases ack <;> simp [levelEvent, riseEvents, fallEvents, pulseCalls]
    simp [rdbEvents, pulseCalls.eq_2, pulseCalls_sampledBits, ninth]
    omega

end Sys2Proof.Machine
end

