-- ==== Sys2Proof/Laws/Step.lean ====
section
/-! SUPPORT. What a command and a step can do, said once: `exec_cases` and `step_cases`. Every claim about all commands is
derived from these. -/

namespace Sys2Proof.Machine

/-- The state a command that passes its checks leaves: events appended and replayed on the drive states, one response,
the phase of R24, answers used up. -/
def completed (i : Instr) (s : State) (evs : List Event) (r : Response) (n : Nat) : State :=
  { s with
    drv := replay s.drv evs
    init := true
    phase := phaseAfter s.phase i
    trace := s.trace ++ evs
    responses := s.responses ++ [r]
    envAnswers := s.envAnswers.drop n }

/-- The drive states a completed command leaves (R90). -/
def drvAfter (d : Drv) : Instr → Drv
  | .init => ⟨.rel, .rel⟩
  | .start => ⟨.low, .low⟩
  | .stop => ⟨.rel, .rel⟩
  | .wrb _ => ⟨.rel, .low⟩
  | .rdb _ => ⟨.rel, .low⟩
  | .gcr => ⟨.rel, .low⟩
  | .crc8 _ _ => d
  | .chk _ _ _ => d

/-- The number of events of a command (R105); `acked` is whether `GCR`'s first byte was acknowledged. -/
def eventCount (acked : Bool) : Instr → Nat
  | .init => 2
  | .start => 6
  | .stop => 5
  | .wrb _ => 55
  | .rdb _ => 56
  | .gcr => if acked then 116 else 61
  | .crc8 _ _ => 0
  | .chk _ _ _ => 0

/-- The fault a command raises when it fails its check (R162). -/
def checkFault (i : Instr) : Fault :=
  match i with
  | .init => .reInit
  | .start => .notInitialized .start
  | .stop => .notInitialized .stop
  | .wrb _ => .notInitialized .wrb
  | .rdb _ => .notInitialized .rdb
  | .gcr => .notInitialized .gcr
  | .crc8 _ _ => .notInitialized .crc8
  | .chk _ _ _ => .notInitialized .chk

/-- Whether a command's check passes (R162): `INIT` needs `init` false, every other command true. -/
def checkPasses (i : Instr) (s : State) : Bool :=
  match i with
  | .init => !s.init
  | .start => s.init
  | .stop => s.init
  | .wrb _ => s.init
  | .rdb _ => s.init
  | .gcr => s.init
  | .crc8 _ _ => s.init
  | .chk _ _ _ => s.init

theorem busErrorOf_cases (a : Bool) : Response.err (busErrorOf a) = .err 0x00 ∨ Response.err (busErrorOf a) = .err 0x01 := by
  cases a
  · exact .inl rfl
  · exact .inr rfl

/-- The body of `GCR` from any state (R104). -/
theorem gcrBody_eq (s : State) :
    ∃ a n evs, evs.length = eventCount a .gcr ∧ replay s.drv evs = ⟨.rel, .low⟩ ∧
      (∃ b, (gcrBody s).1 = busErrorOf b) ∧
      (gcrBody s).2 =
        { s with
          drv := ⟨.rel, .low⟩
          phase := .active
          trace := s.trace ++ evs
          envAnswers := s.envAnswers.drop n } := by
  unfold gcrBody
  cases hb : envDraw s.envAnswers (traceAtAck generalCallAddress (s.trace ++ startEvents)) with
  | true =>
    refine ⟨false, 1, startEvents ++ wrbEvents generalCallAddress true, ?_, ?_, ⟨true, ?_⟩, ?_⟩
    · simp [length_wrbEvents, startEvents, eventCount]
    · simp [replay_wrbEvents]
    · simp [startBody_eq, sendByte_eq, hb, busErrorOf, errAckMissing, errOk]
    · simp [startBody_eq, sendByte_eq, hb, busErrorOf, errAckMissing, errOk]
  | false =>
    let b := envDraw s.envAnswers.tail
      (traceAtAck generalCallReset (s.trace ++ (startEvents ++ wrbEvents generalCallAddress false)))
    refine ⟨true, 2, startEvents ++ (wrbEvents generalCallAddress false ++ wrbEvents generalCallReset b), ?_, ?_, ⟨b, ?_⟩, ?_⟩
    · simp [length_wrbEvents, startEvents, eventCount]
    · simp [replay_wrbEvents]
    · simp [b, startBody_eq, sendByte_eq, hb, busErrorOf, errOk]
    · have two : s.envAnswers.tail.tail = s.envAnswers.drop 2 := by
        rw [← List.drop_one, ← List.drop_one, List.drop_drop]
      simp [b, startBody_eq, sendByte_eq, hb, busErrorOf, errOk, two]

/-- A command past its check completes: it appends the number of events R105 gives it, leaves the lines as R90 says and
returns a response R64 allows. -/
theorem exec_completes (i : Instr) (s : State) (hf : s.fault = none) (hc : checkPasses i s = true) :
    ∃ a evs r n, evs.length = eventCount a i ∧ replay s.drv evs = drvAfter s.drv i ∧ ResponseFits i r ∧
      exec i s = .next (completed i s evs r n) := by
  cases i with
  | init =>
    have hi : s.init = false := by simpa [checkPasses] using hc
    refine ⟨true, initEvents, .none, 0, rfl, replay_initEvents _, rfl, ?_⟩
    simp [exec, execInit, beforeInit, whenSound, hf, hi, initBody_eq, respond, completed, replay_initEvents, phaseAfter]
  | start =>
    have hi : s.init = true := by simpa [checkPasses] using hc
    refine ⟨true, startEvents, .none, 0, rfl, replay_startEvents _, rfl, ?_⟩
    simp [exec, execStart, afterInit, whenSound, hf, hi, startBody_eq, respond, completed, replay_startEvents, phaseAfter]
  | stop =>
    have hi : s.init = true := by simpa [checkPasses] using hc
    refine ⟨true, stopEvents, .none, 0, rfl, replay_stopEvents _, rfl, ?_⟩
    simp [exec, execStop, afterInit, whenSound, hf, hi, stopBody_eq, respond, completed, replay_stopEvents, phaseAfter]
  | wrb v =>
    have hi : s.init = true := by simpa [checkPasses] using hc
    let a := envDraw s.envAnswers (traceAtAck v s.trace)
    refine ⟨true, wrbEvents v a, .err (busErrorOf a), 1, length_wrbEvents v a, replay_wrbEvents _ v a, busErrorOf_cases a, ?_⟩
    simp [a, exec, execWrb, afterInit, whenSound, hf, hi, sendByte_eq, respond, completed, replay_wrbEvents, phaseAfter]
  | rdb ack =>
    have hi : s.init = true := by simpa [checkPasses] using hc
    let bs := drawnBits 8 s.envAnswers (s.trace ++ [.rel .sda])
    refine ⟨true, rdbEvents bs ack, .byte (byteOfBits bs), 8, length_rdbEvents bs ack (length_drawnBits ..),
      replay_rdbEvents _ bs ack, ⟨_, rfl⟩, ?_⟩
    simp [bs, exec, execRdb, afterInit, whenSound, hf, hi, receiveByte_eq, respond, completed, replay_rdbEvents, phaseAfter]
  | gcr =>
    have hi : s.init = true := by simpa [checkPasses] using hc
    obtain ⟨a, n, evs, hl, hr, ⟨b, hb⟩, hs⟩ := gcrBody_eq s
    refine ⟨a, evs, .err (busErrorOf b), n, hl, hr, busErrorOf_cases b, ?_⟩
    simp [exec, execGcr, afterInit, whenSound, hf, hi, hb, hs, respond, completed, hr, phaseAfter]
  | crc8 b0 b1 =>
    have hi : s.init = true := by simpa [checkPasses] using hc
    refine ⟨true, [], .byte (crc8 [b0, b1]), 0, rfl, rfl, ⟨_, rfl⟩, ?_⟩
    simp [exec, execCrc8, afterInit, whenSound, hf, hi, respond, completed, phaseAfter]
  | chk b0 b1 c =>
    have hi : s.init = true := by simpa [checkPasses] using hc
    refine ⟨true, [], .err (checkErrorOf (crc8 [b0, b1]) c), 0, rfl, rfl, ?_, ?_⟩
    · by_cases h : crc8 [b0, b1] = c
      · exact .inl (by simp [checkErrorOf, h, errOk])
      · exact .inr (by simp [checkErrorOf, h, errChecksum])
    simp [exec, execChk, afterInit, whenSound, hf, hi, respond, completed, phaseAfter]

/-- A command that fails its check records its fault and changes nothing else (R162). -/
theorem exec_raises (i : Instr) (s : State) (hf : s.fault = none) (hc : checkPasses i s = false) :
    exec i s = .next (raise (checkFault i) s) := by
  cases i <;> cases hi : s.init <;>
    simp_all [checkPasses, exec, execInit, execStart, execStop, execWrb, execRdb, execGcr, execCrc8, execChk, beforeInit,
      afterInit, whenSound, checkFault]

/-- A faulted block accepts no command (R163). -/
theorem exec_faulted (i : Instr) (s : State) (f : Fault) (hf : s.fault = some f) : exec i s = .fault f := by
  cases i <;>
    simp [exec, execInit, execStart, execStop, execWrb, execRdb, execGcr, execCrc8, execChk, beforeInit, afterInit,
      whenSound, hf]

/-- What a command answers when it answers a next state. -/
theorem exec_cases {i : Instr} {s t : State} (h : exec i s = .next t) :
    s.fault = none ∧
    ((checkPasses i s = false ∧ t = raise (checkFault i) s) ∨
     (checkPasses i s = true ∧ ∃ a evs r n, evs.length = eventCount a i ∧ replay s.drv evs = drvAfter s.drv i ∧
       ResponseFits i r ∧ t = completed i s evs r n)) := by
  cases hf : s.fault with
  | some f => rw [exec_faulted i s f hf] at h; cases h
  | none =>
    refine ⟨rfl, ?_⟩
    cases hc : checkPasses i s with
    | false => rw [exec_raises i s hf hc] at h; cases h; exact .inl ⟨rfl, rfl⟩
    | true =>
      obtain ⟨a, evs, r, n, hl, hd, hr, he⟩ := exec_completes i s hf hc
      rw [he] at h
      cases h
      exact .inr ⟨rfl, a, evs, r, n, hl, hd, hr, rfl⟩

/-- What a step does when it answers a next state: it waits, runs one command, or records an illegal word. -/
theorem step_cases {s t : State} (h : step s = .next t) :
    s.fault = none ∧
    ((s.cmds = [] ∧ t = s) ∨
     (∃ w rest i, s.cmds = w :: rest ∧ decode w = some i ∧ exec i { s with cmds := rest } = .next t) ∨
     (∃ w rest, s.cmds = w :: rest ∧ decode w = none ∧ t = raise (.illegalCommand w) { s with cmds := rest })) := by
  unfold step takeCommand at h
  cases hc : s.cmds with
  | nil =>
    simp only [hc] at h
    obtain ⟨hf, he⟩ := whenSound_next h
    cases he
    exact ⟨hf, .inl ⟨rfl, rfl⟩⟩
  | cons w rest =>
    simp only [hc] at h
    cases hd : decode w with
    | none =>
      simp only [hd] at h
      obtain ⟨hf, he⟩ := whenSound_next h
      cases he
      exact ⟨hf, .inr (.inr ⟨w, rest, rfl, hd, rfl⟩)⟩
    | some i =>
      simp only [hd] at h
      exact ⟨(exec_cases h).1, .inr (.inl ⟨w, rest, i, rfl, hd, h⟩)⟩

end Sys2Proof.Machine
end

