-- ==== Sys2Proof/Laws/Access.lean ====
section
/-! SUPPORT. What the host receives from one command (43_access_sequences.md): `issue` once for any command, then for the
commands the access sequences use. -/

namespace Sys2Proof.Machine

@[simp] theorem andThen_next {α β : Type} (a : α) (s : State) (k : α → State → HostRun β) :
    andThen (.next (a, s)) k = k a s := rfl

/-- The host receives the last response of a command that completed. -/
theorem issue_of_exec {i : Instr} {s t : State} {r : Response} (h : exec i s = .next t) (hf : t.fault = none)
    (hr : t.responses.getLastD .none = r) : issue i s = .next (Response.value r, t) := by
  subst hr
  simp [issue, h, hf]

/-- `START`, issued by the host. -/
theorem issue_start {s : State} (hf : s.fault = none) (hi : s.init = true) :
    issue .start s = .next (errOk, { s with
      drv := ⟨.low, .low⟩, phase := .active, trace := s.trace ++ startEvents
      responses := s.responses ++ [.none] }) :=
  issue_of_exec (r := .none)
    (by simp [exec, execStart, afterInit, whenSound, hf, hi, startBody_eq, respond]) hf (by simp)

/-- `STOP`, issued by the host. -/
theorem issue_stop {s : State} (hf : s.fault = none) (hi : s.init = true) :
    issue .stop s = .next (errOk, { s with
      drv := ⟨.rel, .rel⟩, phase := .idle, trace := s.trace ++ stopEvents
      responses := s.responses ++ [.none] }) :=
  issue_of_exec (r := .none)
    (by simp [exec, execStop, afterInit, whenSound, hf, hi, stopBody_eq, respond]) hf (by simp)

/-- `WRB`, issued by the host: the value received is the BusError of the level drawn. -/
theorem issue_wrb (v : Byte) {s : State} {a : Bool} (hf : s.fault = none) (hi : s.init = true)
    (ha : a = envDraw s.envAnswers (traceAtAck v s.trace)) :
    issue (.wrb v) s = .next (busErrorOf a, { s with
      drv := ⟨.rel, .low⟩, trace := s.trace ++ wrbEvents v a, envAnswers := s.envAnswers.tail
      responses := s.responses ++ [.err (busErrorOf a)] }) :=
  issue_of_exec (r := .err (busErrorOf a))
    (by simp [exec, execWrb, afterInit, whenSound, hf, hi, sendByte_eq, respond, ← ha]) hf (by simp)

/-- `RDB`, issued by the host: the value received is the byte of the levels drawn. -/
theorem issue_rdb (ack : Bool) {s : State} {bs : List Bool} (hf : s.fault = none) (hi : s.init = true)
    (hb : bs = drawnBits 8 s.envAnswers (s.trace ++ [.rel .sda])) :
    issue (.rdb ack) s = .next (byteOfBits bs, { s with
      drv := ⟨.rel, .low⟩, trace := s.trace ++ rdbEvents bs ack, envAnswers := s.envAnswers.drop 8
      responses := s.responses ++ [.byte (byteOfBits bs)] }) :=
  issue_of_exec (r := .byte (byteOfBits bs))
    (by simp only [exec, execRdb, afterInit, whenSound, hf, hi, receiveByte_eq, respond, ← hb, if_true]) hf (by simp)

/-- `CHK`, issued by the host: the value received is the OperationError of the comparison. -/
theorem issue_chk (b0 b1 c : Byte) {s : State} (hf : s.fault = none) (hi : s.init = true) :
    issue (.chk b0 b1 c) s = .next (checkErrorOf (crc8 [b0, b1]) c, { s with
      responses := s.responses ++ [.err (checkErrorOf (crc8 [b0, b1]) c)] }) :=
  issue_of_exec (r := .err (checkErrorOf (crc8 [b0, b1]) c))
    (by simp [exec, execChk, afterInit, whenSound, hf, hi, respond]) hf (by simp)

end Sys2Proof.Machine
end

