-- ==== Sys2Proof/Laws/Asm.lean ====
section
/-! SUPPORT. A printed byte is read back, and holds none of the characters that divide a line (R68). -/

namespace Sys2Proof.Machine

/-- Reading a printed byte gives it back. -/
theorem fieldValue_printByte (v : Byte) : fieldValue 8 (printByte v) = some v := by
  revert v
  decide

/-- A printed byte holds no blank, comma, comment sign or line end. -/
theorem printByte_plain (v : Byte) :
    (printByte v).all (fun c => !isBlank c && c != ',' && c != ';' && c != '\n') = true := by
  revert v
  decide

end Sys2Proof.Machine
end

