-- ==== Sys2Proof/Laws/Encoding.lean ====
section
/-! SUPPORT. The decoder as a chain of row tests, and the bits of an encoded command (R61, R63, R65). -/

namespace Sys2Proof

open Machine

/-- One row of the search: the first row the word selects decides. -/
theorem find_map_cons (w : Word) (r : OpRow) (rs : List OpRow) :
    ((r :: rs).find? (selects w)).map (fun q => instrOf q.op w) =
      if selects w r = true then some (instrOf r.op w)
      else (rs.find? (selects w)).map (fun q => instrOf q.op w) := by
  cases h : selects w r <;> simp [h]

/-- The decoder tries the eight rows of R63 in order. -/
theorem decode_rows (w : Word) : decode w =
    if w &&& 0xFFFFFFFF = 0x10000000 then some .init
    else if w &&& 0xFFFFFFFF = 0x20000000 then some .start
    else if w &&& 0xFFFFFFFF = 0x30000000 then some .stop
    else if w &&& 0xFFFFFF00 = 0x40000000 then some (.wrb (d0Field w))
    else if w &&& 0xFEFFFFFF = 0x50000000 then some (.rdb (aField w))
    else if w &&& 0xFFFFFFFF = 0x60000000 then some .gcr
    else if w &&& 0xFF0000FF = 0x70000000 then some (.crc8 (d2Field w) (d1Field w))
    else if w &&& 0xFF000000 = 0x80000000 then some (.chk (d2Field w) (d1Field w) (d0Field w))
    else none := by
  simp only [decode, opcodeMap, find_map_cons, List.find?_nil, Option.map_none]
  simp only [selects, beq_iff_eq, instrOf]

/-- The bits of an encoded `CRC8`: the opcode, `b0` from bit 16 and `b1` from bit 8. -/
theorem getLsbD_encode_crc8 (b0 b1 : Byte) (i : Nat) (hi : i < 32) :
    (encode (.crc8 b0 b1)).getLsbD i =
      ((0x70000000 : Word).getLsbD i || (decide (16 ≤ i) && b0.getLsbD (i - 16)) ||
        (decide (8 ≤ i) && b1.getLsbD (i - 8))) := by
  by_cases h1 : 16 ≤ i <;> by_cases h2 : 8 ≤ i <;> simp [encode, h1, h2, hi] <;> grind

/-- The bits of an encoded `CHK`: as `CRC8`, and `c` from bit 0. -/
theorem getLsbD_encode_chk (b0 b1 c : Byte) (i : Nat) (hi : i < 32) :
    (encode (.chk b0 b1 c)).getLsbD i =
      ((0x80000000 : Word).getLsbD i || (decide (16 ≤ i) && b0.getLsbD (i - 16)) ||
        (decide (8 ≤ i) && b1.getLsbD (i - 8)) || c.getLsbD i) := by
  by_cases h1 : 16 ≤ i <;> by_cases h2 : 8 ≤ i <;> simp [encode, h1, h2, hi] <;> grind

end Sys2Proof
end

