-- ==== Sys2Proof/Laws/PerInstr.lean ====
section
/-! SUPPORT. Statements made once per command: the opcode and reserved fields of every encoded command (R61, R63). -/

namespace Sys2Proof.Laws.OpField

open Sys2Proof.Machine

/-- An encoded command carries its row's number in `OP` and zeros in `Z` (R61, R63). -/
def Statement (i : Instr) : Prop :=
  opField (encode i) = opNumber (mnemonicOf i) ∧ zField (encode i) = 0

theorem init : Statement .init := ⟨rfl, rfl⟩

theorem start : Statement .start := ⟨rfl, rfl⟩

theorem stop : Statement .stop := ⟨rfl, rfl⟩

theorem wrb (v : Byte) : Statement (.wrb v) := by
  revert v
  unfold Statement
  decide

theorem rdb (ack : Bool) : Statement (.rdb ack) := by cases ack <;> exact ⟨rfl, rfl⟩

theorem gcr : Statement .gcr := ⟨rfl, rfl⟩

theorem crc8 (b0 b1 : Byte) : Statement (.crc8 b0 b1) := by
  constructor <;> apply BitVec.eq_of_getLsbD_eq <;> intro i hi
  · rw [opField, BitVec.getLsbD_extractLsb', getLsbD_encode_crc8 _ _ _ (by omega)]
    interval_cases i <;> simp [mnemonicOf, opNumber]
  · rw [zField, BitVec.getLsbD_extractLsb', getLsbD_encode_crc8 _ _ _ (by omega)]
    interval_cases i <;> simp

theorem chk (b0 b1 c : Byte) : Statement (.chk b0 b1 c) := by
  constructor <;> apply BitVec.eq_of_getLsbD_eq <;> intro i hi
  · rw [opField, BitVec.getLsbD_extractLsb', getLsbD_encode_chk _ _ _ _ (by omega)]
    interval_cases i <;> simp [mnemonicOf, opNumber]
  · rw [zField, BitVec.getLsbD_extractLsb', getLsbD_encode_chk _ _ _ _ (by omega)]
    interval_cases i <;> simp

end Sys2Proof.Laws.OpField
end

