-- ==== Sys2Proof/Tests/Slice0.lean ====
section
/-! SUPPORT. The model's own tests. Expected values come from 95_test_vectors.md (T2.1 to T2.7, P1 to P6), from the tables of
R63, R66 and R68, or from a rule's example, named beside each test; none was computed by the model. The last part shows,
for each obligation with hypotheses, concrete states and operands that meet them. -/

namespace Sys2Proof.Tests

open Sys2Proof.Machine

/-! ### Decoding: words written out from R61, R63 and R68 -/

theorem test_decode_init : decode 0b0001_000_0_00000000_00000000_00000000 = some .init := by decide
theorem test_decode_start : decode 0b0010_000_0_00000000_00000000_00000000 = some .start := by decide
theorem test_decode_stop : decode 0b0011_000_0_00000000_00000000_00000000 = some .stop := by decide
theorem test_decode_wrb : decode 0b0100_000_0_00000000_00000000_10001000 = some (.wrb 0x88) := by decide
theorem test_decode_rdb_ack : decode 0b0101_000_1_00000000_00000000_00000000 = some (.rdb true) := by decide
theorem test_decode_rdb_nack : decode 0b0101_000_0_00000000_00000000_00000000 = some (.rdb false) := by decide
theorem test_decode_gcr : decode 0b0110_000_0_00000000_00000000_00000000 = some .gcr := by decide
theorem test_decode_crc8 : decode 0b0111_000_0_10111110_11101111_00000000 = some (.crc8 0xBE 0xEF) := by decide
theorem test_decode_chk : decode 0b1000_000_0_10111110_11101111_10010010 = some (.chk 0xBE 0xEF 0x92) := by decide

/-- The table's numbering of a row's bits. -/
theorem test_decode_table_word : decodeTableWord 32 0x80BEEF01 = some (.chk 0xBE 0xEF 0x01) := by decide

/-! ### Ill-formed words (T2.1): each check of R66 refuses one -/

theorem test_wf_op0 : opAssigned 0x00000000 = false ∧ decode 0x00000000 = none := by decide
theorem test_wf_op9 : opAssigned 0x90000000 = false ∧ decode 0x90000000 = none := by decide
theorem test_wf_op15 : opAssigned 0xF0000000 = false ∧ decode 0xF0000000 = none := by decide
theorem test_wf_z : zClear 0x22000000 = false ∧ decode 0x22000000 = none := by decide
theorem test_wf_a_stop : aClear 0x31000000 = false ∧ decode 0x31000000 = none := by decide
theorem test_wf_a_wrb : aClear 0x41000000 = false ∧ decode 0x41000000 = none := by decide
theorem test_wf_a_gcr : aClear 0x61000000 = false ∧ decode 0x61000000 = none := by decide
theorem test_wf_d0_init : d0Clear 0x10000001 = false ∧ decode 0x10000001 = none := by decide
theorem test_wf_d0_rdb : d0Clear 0x51000001 = false ∧ decode 0x51000001 = none := by decide
theorem test_wf_d0_crc8 : d0Clear 0x70BEEF01 = false ∧ decode 0x70BEEF01 = none := by decide
theorem test_wf_d1_wrb : d12Clear 0x400001AA = false ∧ decode 0x400001AA = none := by decide
theorem test_wf_d2_rdb : d12Clear 0x50010000 = false ∧ decode 0x50010000 = none := by decide
theorem test_wf_good : wellFormedWord 0x80BEEF01 = true := by decide

/-! ### States the vectors start from -/

/-- After `INIT` (R85, example), with the environment's coming answers. -/
def ready (answers : List Bool) : State :=
  { State.reset with drv := ⟨.rel, .rel⟩, init := true, phase := .idle, trace := [.rel .sda, .rel .scl], envAnswers := answers }

/-- After `INIT; START` (T2.2). -/
def opened (answers : List Bool) : State :=
  { ready answers with drv := ⟨.low, .low⟩, phase := .active, trace := initEvents ++ startEvents }

/-- A next state's field; `none` for any other outcome. -/
def onNext {α : Type} (r : Host.Outcome State Fault Refusal) (f : State → α) : Option α :=
  match r with
  | .next t => some (f t)
  | .fault _ => none
  | .refused _ => none

/-- The last response. -/
def answer (t : State) : Option Response := t.responses.getLast?

/-! ### Faults (T2.1, R162, R163) -/

theorem test_start_before_init :
    onNext (step (State.reset.withFetchWord 32 0x20000000)) (fun t => (t.fault, t.trace)) =
      some (some (.notInitialized .start), []) := by decide
theorem test_init_from_reset :
    onNext (step (State.reset.withFetchWord 32 0x10000000)) (fun t => (t.fault, t.trace, t.drv, t.phase)) =
      some (none, [.rel .sda, .rel .scl], ⟨.rel, .rel⟩, .idle) := by decide
theorem test_second_init : onNext (step ((ready []).withFetchWord 32 0x10000000)) (·.fault) = some (some .reInit) := by decide
theorem test_crc8_before_init :
    onNext (step (State.reset.withFetchWord 32 0x70BEEF00)) (·.fault) = some (some (.notInitialized .crc8)) := by decide
theorem test_illegal_word :
    onNext (step ((ready []).withFetchWord 32 0x10000001)) (·.fault) = some (some (.illegalCommand 0x10000001)) := by decide
theorem test_illegal_before_init :
    onNext (step (State.reset.withFetchWord 32 0xF0000000)) (·.fault) = some (some (.illegalCommand 0xF0000000)) := by decide
theorem test_faulted_takes_no_step :
    step ({ ready [] with fault := some .reInit }.withFetchWord 32 0x30000000) = .fault .reInit := by rfl

/-! ### Framing (T2.2) -/

theorem test_start : onNext (exec .start (ready [])) (fun t => (newEvents (ready []) t, t.drv, t.phase)) =
    some ([.rel .sda, .rel .scl, .wait .startSetup, .low .sda, .wait .startHold, .low .scl], ⟨.low, .low⟩, .active) := by
  decide
theorem test_repeated_start : onNext (exec .start (opened [])) (fun t => (newEvents (opened []) t, t.drv, t.phase)) =
    some ([.rel .sda, .rel .scl, .wait .startSetup, .low .sda, .wait .startHold, .low .scl], ⟨.low, .low⟩, .active) := by
  decide
theorem test_stop : onNext (exec .stop (opened [])) (fun t => (newEvents (opened []) t, t.drv, t.phase)) =
    some ([.low .scl, .low .sda, .rel .scl, .wait .stopSetup, .rel .sda], ⟨.rel, .rel⟩, .idle) := by decide

/-! ### Byte transfer (T2.3, T2.4) -/

/-- The SDA events and the sample of T2.3's full trace of `WRB 0xA5`. -/
theorem test_wrb_a5_lines : onNext (exec (.wrb 0xA5) (ready [false])) (fun t =>
      (answer t, (newEvents (ready []) t).length, (newEvents (ready []) t).filter isSdaEvent)) =
    some (some (.err 0x00), 55, [.rel .sda, .low .sda, .rel .sda, .low .sda, .low .sda, .rel .sda, .low .sda, .rel .sda,
      .rel .sda]) := by decide
theorem test_wrb_no_device : onNext (exec (.wrb 0x88) (opened [true])) (fun t => (answer t, t.drv, t.envAnswers)) =
    some (some (.err 0x01), ⟨.rel, .low⟩, []) := by decide
theorem test_rdb_12 :
    onNext (exec (.rdb true) (opened [false, false, false, true, false, false, true, false])) (fun t =>
      (answer t, (newEvents (opened []) t).length, (newEvents (opened []) t).filter isSdaEvent)) =
    some (some (.byte 0x12), 56, [.rel .sda, .low .sda, .rel .sda]) := by decide
theorem test_rdb_be_nack :
    onNext (exec (.rdb false) (opened [true, false, true, true, true, true, true, false])) (fun t =>
      (answer t, (newEvents (opened []) t).filter isSdaEvent)) =
    some (some (.byte 0xBE), [.rel .sda, .rel .sda, .rel .sda]) := by decide

/-! ### General call reset (T2.5) -/

theorem test_gcr_no_device : onNext (exec .gcr (ready [true])) (fun t =>
    (answer t, (newEvents (ready []) t).length, t.drv, t.phase)) =
    some (some (.err 0x01), 61, ⟨.rel, .low⟩, .active) := by decide
theorem test_gcr_second_byte_missing : onNext (exec .gcr (ready [false, true])) (fun t =>
    (answer t, (newEvents (ready []) t).length)) = some (some (.err 0x01), 116) := by
  set_option maxRecDepth 2000 in decide

/-! ### CRC-8 (T2.6 and its notes) -/

theorem test_crc8_beef : onNext (exec (.crc8 0xBE 0xEF) (ready [])) answer = some (some (.byte 0x92)) := by
  set_option maxRecDepth 2000 in decide
theorem test_crc8_values : (crc8 [0x00, 0x00], crc8 [0x12, 0x34], crc8 [0x56, 0x78], crc8 [0xFF, 0xFF], crc8 [0x80, 0x00]) =
    (0x81, 0x37, 0x7D, 0xAC, 0xA2) := by
  set_option maxRecDepth 2000 in decide
theorem test_crc8_short : (crc8 [], crc8 [0x00], crc8 [0xFF]) = (0xFF, 0xAC, 0x00) := by decide
theorem test_chk_good : onNext (exec (.chk 0xBE 0xEF 0x92) (ready [])) answer = some (some (.err 0x00)) := by
  set_option maxRecDepth 2000 in decide
theorem test_chk_bad : onNext (exec (.chk 0xBE 0xEF 0x93) (ready [])) answer = some (some (.err 0x02)) := by
  set_option maxRecDepth 2000 in decide

/-! ### Access sequences (T2.7) and the assembler (R68) -/

theorem test_address_bytes : (addrByte 0x44 false, addrByte 0x44 true) = (0x88, 0x89) := by decide
theorem test_expansions : (expansion 0x44 0 0 0 .bwa).map encode = [0x20000000, 0x40000088] ∧
    (expansion 0x44 0 0 0 (.scmd 0x3780)).map encode = [0x40000037, 0x40000080] := by decide

/-- A host procedure's value. -/
def hostValue {α : Type} (r : HostRun α) : Option α :=
  match r with
  | .next (a, _) => some a
  | .fault _ => none
  | .refused _ => none

theorem test_scmd_first_byte_missing : hostValue (scmd 0x3780 (opened [true, false])) = some 0x01 := by decide
theorem test_rdwc : hostValue (rdwc true (opened ([0x12, 0x34, 0x37].flatMap bitsMSB))) = some (0x1234, 0x00) := by
  set_option maxRecDepth 2000 in decide
theorem test_rdwc_mismatch :
    (hostValue (rdwc false (opened ([0x56, 0x78, 0x7C].flatMap bitsMSB)))).map (·.2) = some 0x02 := by
  set_option maxRecDepth 2000 in decide
/-- A first word that fails (R145's skip against R184's duty): one word read, or both. -/
theorem test_read_policies :
    [ReadPolicy.skipAfterFailure, ReadPolicy.readAll].map (fun p =>
      (hostValue (readWords p 1 0x00 (opened ([0x56, 0x78, 0x7C, 0x12, 0x34, 0x37].flatMap bitsMSB)))).map
        fun r => (r.1.length, r.2)) = [some (1, 0x02), some (2, 0x02)] := by
  set_option maxRecDepth 4000 in decide
theorem test_operation_grammar : isOperation [.bwa, .scmd 0xE000, .bra, .rdwc true none, .rdwc false none, .enda] = true ∧
    isOperation [.bwa, .scmd 0xE000, .bra, .enda] = false ∧
    isOperation [.bwa, .scmd 0xE000, .bra, .rdwc false none, .rdwc true none, .enda] = false := by
  set_option maxRecDepth 2000 in decide
theorem test_host_rules :
    bytesInside .idle [.start, .wrb 0x88, .stop, .wrb 0x88] = false ∧
    lastReadUnacked false [.start, .rdb true, .stop] = false ∧
    lastReadUnacked false [.start, .rdb true] = true ∧
    closesGeneralCall false [.gcr, .start, .stop] = false ∧ closesGeneralCall false [.gcr] = false ∧
    initOnce [.init, .start, .init] = false ∧
    serialized none [(1, .start), (2, .wrb 0x88), (1, .stop)] = false ∧
    serialized none [(1, .gcr), (1, .stop), (2, .start), (2, .stop)] = true := by decide
/-- R192's column against R89's definition: a `WRB` from Idle is nine calls of `Pulse` and eight clock pulses of R89. -/
theorem test_two_pulse_counts :
    (pulseCalls none (wrbEvents 0xA5 false), clockPulses ⟨.rel, .rel⟩ (wrbEvents 0xA5 false)) = (9, 8) ∧
    (pulseCalls none startEvents, clockPulses ⟨.rel, .low⟩ startEvents) = (0, 1) := by
  set_option maxRecDepth 2000 in decide
theorem test_assemble : assemble (['W', 'R', 'B', ' ', '0', 'x', '8', '8', ' ', ';', 'a', '\n', 'R', 'D', 'B', ' ', 'A', 'C',
    'K', '\n', '\n', 'S', 'C', 'M', 'D', ' ', '1', '4', '2', '0', '8']) =
    some [.cmd (.wrb 0x88), .cmd (.rdb true), .pseudo (.scmd 0x3780)] := by decide
theorem test_assemble_too_wide : assemble ['W', 'R', 'B', ' ', '2', '5', '6'] = none := by decide

/-! ### Witnesses: the hypotheses of each obligation are met together -/

/-- `INIT` presented to a block after reset. -/
def fresh : State := { State.reset with cmds := [0x10000000] }

theorem fresh_inv : Inv fresh := by constructor <;> simp [fresh, State.reset]

theorem witness_StepRunsTheDecodedCommand :
    fresh.cmds = 0x10000000 :: [] ∧ decode 0x10000000 = some .init := by decide
theorem witness_StepWithoutCommandWaits : State.reset.fault = none ∧ State.reset.cmds = [] := by decide
theorem witness_EncodeOfDecodeIsTheWord : decode 0x51000000 = some (.rdb true) := by decide
theorem witness_SampleReadsTheWiredLevel : (ready []).drv.sda ≠ .unconf := by decide
theorem witness_uninitialised : State.reset.fault = none ∧ State.reset.init = false := by decide
/-- Meets the hypotheses `fault = none` and `init = true` of every command's and access sequence's equation. -/
theorem witness_initialised : (ready []).fault = none ∧ (ready []).init = true := by decide
theorem witness_WrbSendsTheByteAndReportsTheAck :
    (true = envDraw (ready [true]).envAnswers (traceAtAck 0x88 (ready [true]).trace)) ∧ (ready [true]).init = true := by decide
theorem witness_RdbReceivesTheDrawnBits :
    drawnBits 8 (opened [false, false, false, true, false, false, true, false]).envAnswers ((opened []).trace ++ [.rel .sda]) =
      [false, false, false, true, false, false, true, false] := by decide
theorem witness_GcrSendsTheGeneralCallReset_missing :
    envDraw (ready [true]).envAnswers (traceAtAck 0x00 ((ready [true]).trace ++ startEvents)) = true := by decide
theorem witness_GcrSendsTheGeneralCallReset_acked :
    envDraw (ready [false, true]).envAnswers (traceAtAck 0x00 ((ready []).trace ++ startEvents)) = false ∧
    true = envDraw (ready [false, true]).envAnswers.tail
      (traceAtAck 0x06 ((ready []).trace ++ startEvents ++ wrbEvents 0x00 false)) := by decide
theorem witness_IllegalWordsAreExactlyTheListedOnes :
    ((ready []).withFetchWord 32 0x22000000).fault = none ∧
    ((ready []).withFetchWord 32 0x22000000).cmds = 0x22000000 :: [] ∧ wellFormedWord 0x22000000 = false := by decide
theorem witness_ModelFaults_illegal :
    ({ ready [] with cmds := [0x90000000] } : State).cmds = 0x90000000 :: [] ∧ decode 0x90000000 = none := by decide
theorem witness_ModelFaults_notInitialized : State.reset.init = false ∧ Instr.gcr ≠ .init := by decide
theorem witness_FaultIsPermanent : ({ ready [] with fault := some .reInit } : State).fault = some .reInit := by decide
theorem witness_FaultsComeBeforeTheFirstEvent_fault :
    ∃ t, step { State.reset with cmds := [0x20000000] } = .next t ∧ t.fault ≠ none := ⟨_, rfl, by decide⟩
theorem witness_FaultsComeBeforeTheFirstEvent_event :
    ∃ t, step fresh = .next t ∧ t.trace ≠ fresh.trace := ⟨_, rfl, by decide⟩
/-- Each command completes on a concrete state: the hypotheses of the statements over `exec i s = .next t` with no fault. -/
theorem witness_completes_init : ∃ t, exec .init State.reset = .next t ∧ t.fault = none := ⟨_, rfl, rfl⟩
theorem witness_completes_start : ∃ t, exec .start (ready []) = .next t ∧ t.fault = none := ⟨_, rfl, rfl⟩
theorem witness_completes_stop : ∃ t, exec .stop (opened []) = .next t ∧ t.fault = none := ⟨_, rfl, rfl⟩
theorem witness_completes_wrb : ∃ t, exec (.wrb 0x88) (opened [false]) = .next t ∧ t.fault = none := ⟨_, rfl, rfl⟩
theorem witness_completes_rdb : ∃ t, exec (.rdb true) (opened (bitsMSB 0x12)) = .next t ∧ t.fault = none := ⟨_, rfl, rfl⟩
theorem witness_completes_gcr : ∃ t, exec .gcr (ready [false, false]) = .next t ∧ t.fault = none := ⟨_, rfl, rfl⟩
theorem witness_completes_crc8 : ∃ t, exec (.crc8 0xBE 0xEF) (ready []) = .next t ∧ t.fault = none := ⟨_, rfl, rfl⟩
theorem witness_completes_chk : ∃ t, exec (.chk 0xBE 0xEF 0x92) (ready []) = .next t ∧ t.fault = none := ⟨_, rfl, rfl⟩
/-- The last clause of `DriveStateAtTheEndOfEachCommand`: a step from a state that meets its premise into an open phase. -/
theorem witness_DriveState_active :
    ∃ t, step { ready [] with cmds := [0x20000000] } = .next t ∧ ((ready []).phase = .active → (ready []).drv.scl = .low) ∧
      t.phase = .active := ⟨_, rfl, by decide, rfl⟩
theorem witness_LinesChangeOnlyByTracedEvents :
    ∃ t, step fresh = .next t ∧ Inv fresh ∧ driveOf fresh.drv .scl = .unconf ∧ driveOf t.drv .scl ≠ .unconf :=
  ⟨_, rfl, fresh_inv, rfl, by decide⟩
theorem witness_ByteTransfersKeepTheFraming_inside :
    (opened [true]).init = true ∧ (opened [true]).drv.scl = .low ∧ ∃ t, exec (.wrb 0x00) (opened [true]) = .next t :=
  ⟨rfl, rfl, _, rfl⟩
theorem witness_ByteTransfersKeepTheFraming_start :
    (ready [true]).drv = ⟨.rel, .rel⟩ ∧ (0x00 : Byte).getLsbD 7 = false ∧ ∃ t, exec (.wrb 0x00) (ready [true]) = .next t :=
  ⟨rfl, rfl, _, rfl⟩
theorem witness_ByteTransfersKeepTheFraming_none :
    (ready [true]).drv = ⟨.rel, .rel⟩ ∧ (0xA5 : Byte).getLsbD 7 = true ∧ ∃ t, exec (.wrb 0xA5) (ready [true]) = .next t :=
  ⟨rfl, rfl, _, rfl⟩
theorem witness_ByteTransfersKeepTheFraming_read :
    (ready (bitsMSB 0xFF)).drv = ⟨.rel, .rel⟩ ∧ ∃ t, exec (.rdb false) (ready (bitsMSB 0xFF)) = .next t := ⟨rfl, _, rfl⟩
theorem witness_FramingCommandsMakeOneCondition :
    (ready []).drv.sda ≠ .unconf ∧ (ready []).drv.scl ≠ .unconf ∧ ((ready []).drv.scl = .rel → (ready []).drv.sda = .rel) := by
  decide
theorem witness_PhaseIsBookkeeping : ∃ t, exec .stop (ready []) = .next t := ⟨_, rfl⟩
theorem witness_HiddenStateIsNotRead : SameView (opened [true]) { opened [true] with
    drv := ⟨.rel, .low⟩, phase := .idle, responses := [.err 0x01], cmds := [0x30000000] } := ⟨rfl, rfl, rfl, rfl⟩
theorem witness_StepKeepsTheInvariant : Inv fresh ∧ ∃ t, step fresh = .next t := ⟨fresh_inv, _, rfl⟩
theorem witness_NothingUndoesInit :
    ∃ t, step { ready [] with cmds := [0x30000000] } = .next t ∧ (ready []).init = true := ⟨_, rfl, rfl⟩
theorem witness_ProgramsThatInitOnceNeverFault :
    initOnce [.init, .start, .wrb 0x88, .stop] = true ∧
    ({ State.reset with cmds := [.init, .start, .wrb 0x88, .stop].map encode } : State).init = false := by decide
theorem witness_BytesInsideTransactionsAreData :
    bytesInside (opened []).phase [.wrb 0x00, .stop] = true ∧ Inv (opened []) :=
  ⟨by decide, by constructor <;> simp [opened, ready, initEvents, startEvents, State.reset]⟩
theorem witness_OperationsKeepTheHostRules :
    isOperation [.bwa, .scmd 0xE000, .bra, .rdwc true none, .rdwc false none, .enda] = true := by
  set_option maxRecDepth 2000 in decide
/-- Payload bit 8 flipped: `0xBEEF` to `0xBFEF` (T2.6), bit 15 at the other end, and the last checksum bit. -/
theorem witness_ChkCatchesEverySingleBitError :
    wordOf 0xBF 0xEF = wordOf 0xBE 0xEF ^^^ (1 <<< 8) ∧ (8 : Nat) < 16 ∧
    wordOf 0x3E 0xEF = wordOf 0xBE 0xEF ^^^ (1 <<< 15) ∧ (15 : Nat) < 16 ∧ (7 : Nat) < 8 := by decide
theorem witness_BeginAccessSendsTheAddressByte :
    false = envDraw (ready [false]).envAnswers (traceAtAck (addrByte 0x44 false) ((ready []).trace ++ startEvents)) ∧
    true = envDraw (ready [true]).envAnswers (traceAtAck (addrByte 0x44 true) ((ready []).trace ++ startEvents)) := by decide
theorem witness_SendCommandAlwaysSendsBothBytes :
    true = envDraw (opened [true, false]).envAnswers (traceAtAck ((0x3780 : BitVec 16).extractLsb' 8 8) (opened []).trace) ∧
    false = envDraw (opened [true, false]).envAnswers.tail
      (traceAtAck ((0x3780 : BitVec 16).extractLsb' 0 8)
        ((opened []).trace ++ wrbEvents ((0x3780 : BitVec 16).extractLsb' 8 8) true)) := by decide
/-- A word that checks and one that does not (T2.7). -/
theorem witness_ReadWordChecksItsBytes : crc8 [0x12, 0x34] = 0x37 ∧ crc8 [0x56, 0x78] ≠ 0x7C := by
  set_option maxRecDepth 2000 in decide
/-- A program, split at an opener and a later command of its transaction. -/
theorem witness_SerializedIsOneThreadPerTransaction :
    [(1, .start), (1, .wrb 0x88), (1, .stop)] = ([] : List (Nat × Instr)) ++ (1, .start) :: [(1, .wrb 0x88)] ++ (1, .stop) :: [] ∧
    opensTransaction .start = true ∧ (∀ q ∈ [((1 : Nat), Instr.wrb 0x88)], q.2 ≠ .stop) ∧
    ∃ t, exec .start (ready []) = .next t ∧ t.fault = none ∧ (ready []).init = true :=
  ⟨rfl, rfl, by decide, _, rfl, rfl, rfl⟩
/-- One word, read to its end by an environment that acknowledges four bytes. -/
theorem witness_CompletedReadsEndUnacknowledged :
    (hostValue (operation .skipAfterFailure 0x44 0xE000 1
      (ready ([false, false, false, false] ++ [0xBE, 0xEF, 0x92].flatMap bitsMSB)))).map (·.1.length) = some 1 := by
  set_option maxRecDepth 4000 in decide
theorem witness_OperationsSkipAfterAMissingAck :
    envDraw (ready [true]).envAnswers (traceAtAck (addrByte 0x44 false) ((ready []).trace ++ startEvents)) = true := by decide

end Sys2Proof.Tests
end

section
/-! SUPPORT and PROOFS. The family 10_state.md: what a completed command adds, as functions of the visible state alone,
and what a step can answer in those terms; then the invariant (R22 to R31) and the other claims about the state. -/

namespace Sys2Proof.Machine

/-! ### What a completed command adds

`exec_completes` says that a completed command adds some events, a response and a number of draws. Here they are functions
of the command, the scripted answers and the trace: no other field of the state has a part in them. -/

/-- The acknowledge level `GCR` samples after its first byte (R104). -/
def gcrFirstAck (as : List Bool) (tr : List Event) : Bool :=
  envDraw as (traceAtAck generalCallAddress (tr ++ startEvents))

/-- The acknowledge level `GCR` samples after its second byte, sent only when the first was acknowledged (R104). -/
def gcrSecondAck (as : List Bool) (tr : List Event) : Bool :=
  envDraw as.tail (traceAtAck generalCallReset (tr ++ (startEvents ++ wrbEvents generalCallAddress false)))

/-- The events of `GCR` (R104): the second byte's only when the first was acknowledged. -/
def gcrEvents (as : List Bool) (tr : List Event) : List Event :=
  if gcrFirstAck as tr then startEvents ++ wrbEvents generalCallAddress true
  else startEvents ++ (wrbEvents generalCallAddress false ++ wrbEvents generalCallReset (gcrSecondAck as tr))

/-- The events a completed command appends (R85 to R87, R102 to R104). -/
def eventsOf (as : List Bool) (tr : List Event) : Instr → List Event
  | .init => initEvents
  | .start => startEvents
  | .stop => stopEvents
  | .wrb v => wrbEvents v (envDraw as (traceAtAck v tr))
  | .rdb ack => rdbEvents (drawnBits 8 as (tr ++ [.rel .sda])) ack
  | .gcr => gcrEvents as tr
  | .crc8 _ _ => []
  | .chk _ _ _ => []

/-- The response a completed command returns (R64). -/
def responseOf (as : List Bool) (tr : List Event) : Instr → Response
  | .init => .none
  | .start => .none
  | .stop => .none
  | .wrb v => .err (busErrorOf (envDraw as (traceAtAck v tr)))
  | .rdb _ => .byte (byteOfBits (drawnBits 8 as (tr ++ [.rel .sda])))
  | .gcr => .err (busErrorOf (gcrFirstAck as tr || gcrSecondAck as tr))
  | .crc8 b0 b1 => .byte (crc8 [b0, b1])
  | .chk b0 b1 c => .err (checkErrorOf (crc8 [b0, b1]) c)

/-- How many samples a completed command takes, so how many scripted answers it uses up (R26). -/
def samplesOf (as : List Bool) (tr : List Event) : Instr → Nat
  | .init => 0
  | .start => 0
  | .stop => 0
  | .wrb _ => 1
  | .rdb _ => 8
  | .gcr => if gcrFirstAck as tr then 1 else 2
  | .crc8 _ _ => 0
  | .chk _ _ _ => 0

/-- The state in which a command that passes its checks ends. -/
def afterCommand (i : Instr) (s : State) : State :=
  completed i s (eventsOf s.envAnswers s.trace i) (responseOf s.envAnswers s.trace i) (samplesOf s.envAnswers s.trace i)

@[simp] theorem afterCommand_trace (i : Instr) (s : State) :
    (afterCommand i s).trace = s.trace ++ eventsOf s.envAnswers s.trace i := rfl
@[simp] theorem afterCommand_phase (i : Instr) (s : State) : (afterCommand i s).phase = phaseAfter s.phase i := rfl
@[simp] theorem afterCommand_init (i : Instr) (s : State) : (afterCommand i s).init = true := rfl
@[simp] theorem afterCommand_fault (i : Instr) (s : State) : (afterCommand i s).fault = s.fault := rfl
@[simp] theorem afterCommand_cmds (i : Instr) (s : State) : (afterCommand i s).cmds = s.cmds := rfl
@[simp] theorem afterCommand_responses (i : Instr) (s : State) :
    (afterCommand i s).responses = s.responses ++ [responseOf s.envAnswers s.trace i] := rfl
@[simp] theorem afterCommand_envAnswers (i : Instr) (s : State) :
    (afterCommand i s).envAnswers = s.envAnswers.drop (samplesOf s.envAnswers s.trace i) := rfl

/-- A completed command leaves the lines as R90 says. -/
theorem replay_eventsOf (d : Drv) (as : List Bool) (tr : List Event) (i : Instr) :
    replay d (eventsOf as tr i) = drvAfter d i := by
  cases i with
  | init => exact replay_initEvents d
  | start => exact replay_startEvents d
  | stop => exact replay_stopEvents d
  | wrb v => exact replay_wrbEvents d v _
  | rdb ack => exact replay_rdbEvents d _ ack
  | gcr => simp only [eventsOf, gcrEvents]; split <;> simp [replay_wrbEvents, drvAfter]
  | crc8 b0 b1 => rfl
  | chk b0 b1 c => rfl

@[simp] theorem afterCommand_drv (i : Instr) (s : State) : (afterCommand i s).drv = drvAfter s.drv i :=
  replay_eventsOf s.drv s.envAnswers s.trace i

/-- A completed command's response is one R64 allows. -/
theorem responseOf_fits (as : List Bool) (tr : List Event) (i : Instr) : ResponseFits i (responseOf as tr i) := by
  cases i with
  | init => rfl
  | start => rfl
  | stop => rfl
  | wrb v => exact busErrorOf_cases _
  | rdb ack => exact ⟨_, rfl⟩
  | gcr => exact busErrorOf_cases _
  | crc8 b0 b1 => exact ⟨_, rfl⟩
  | chk b0 b1 c =>
    by_cases h : crc8 [b0, b1] = c
    · exact .inl (by simp [responseOf, checkErrorOf, h, errOk])
    · exact .inr (by simp [responseOf, checkErrorOf, h, errChecksum])

/-- The body of `GCR` from any state, with its events, its result and its draws written out (R104). -/
theorem gcrBody_eq_gcrEvents (s : State) :
    gcrBody s = (busErrorOf (gcrFirstAck s.envAnswers s.trace || gcrSecondAck s.envAnswers s.trace),
      { s with
        drv := ⟨.rel, .low⟩
        phase := .active
        trace := s.trace ++ gcrEvents s.envAnswers s.trace
        envAnswers := s.envAnswers.drop (samplesOf s.envAnswers s.trace .gcr) }) := by
  cases h : gcrFirstAck s.envAnswers s.trace with
  | true =>
    have draw : envDraw s.envAnswers (traceAtAck generalCallAddress (s.trace ++ startEvents)) = true := h
    simp [gcrBody, startBody_eq, sendByte_eq, draw, gcrEvents, samplesOf, h, busErrorOf, errAckMissing, errOk]
  | false =>
    have draw : envDraw s.envAnswers (traceAtAck generalCallAddress (s.trace ++ startEvents)) = false := h
    have two : s.envAnswers.tail.tail = s.envAnswers.drop 2 := by simp [← List.drop_one]
    simp [gcrBody, startBody_eq, sendByte_eq, draw, gcrEvents, gcrSecondAck, samplesOf, h, busErrorOf, errOk, two]

/-- A command whose body adds what `eventsOf`, `responseOf` and `samplesOf` say, and leaves the lines and the phase as R90
and R24 say, ends in `afterCommand`. -/
theorem afterInit_eq_afterCommand {op : Mnemonic} {body : State → Response × State} {i : Instr} {s : State}
    (hf : s.fault = none) (hi : s.init = true)
    (hb : body s = (responseOf s.envAnswers s.trace i,
      { s with
        drv := drvAfter s.drv i
        phase := phaseAfter s.phase i
        trace := s.trace ++ eventsOf s.envAnswers s.trace i
        envAnswers := s.envAnswers.drop (samplesOf s.envAnswers s.trace i) })) :
    afterInit op body s = .next (afterCommand i s) := by
  simp [afterInit, whenSound, hf, hi, hb, respond, afterCommand, completed, replay_eventsOf]

/-- A command past its check ends in `afterCommand` (R85 to R87, R100, R101, R104, R121, R122). -/
theorem exec_eq_afterCommand (i : Instr) (s : State) (hf : s.fault = none) (hc : checkPasses i s = true) :
    exec i s = .next (afterCommand i s) := by
  cases i with
  | init =>
    have hi : s.init = false := by simpa [checkPasses] using hc
    simp [exec, execInit, beforeInit, whenSound, hf, hi, initBody_eq, respond, afterCommand, completed, replay_initEvents,
      phaseAfter, eventsOf, responseOf, samplesOf]
  | start =>
    rw [exec, execStart]
    exact afterInit_eq_afterCommand hf hc (by rw [startBody_eq]; rfl)
  | stop =>
    rw [exec, execStop]
    exact afterInit_eq_afterCommand hf hc (by rw [stopBody_eq]; rfl)
  | wrb v =>
    rw [exec, execWrb]
    exact afterInit_eq_afterCommand hf hc (by rw [sendByte_eq, ← List.drop_one]; rfl)
  | rdb ack =>
    rw [exec, execRdb]
    exact afterInit_eq_afterCommand hf hc (by rw [receiveByte_eq]; rfl)
  | gcr =>
    rw [exec, execGcr]
    exact afterInit_eq_afterCommand hf hc (by rw [gcrBody_eq_gcrEvents]; rfl)
  | crc8 b0 b1 =>
    rw [exec, execCrc8]
    exact afterInit_eq_afterCommand hf hc (by simp [responseOf, drvAfter, phaseAfter, eventsOf, samplesOf])
  | chk b0 b1 c =>
    rw [exec, execChk]
    exact afterInit_eq_afterCommand hf hc (by simp [responseOf, drvAfter, phaseAfter, eventsOf, samplesOf])

/-- What a command answers when it answers a next state: its fault recorded, or `afterCommand`. -/
theorem exec_next_cases {i : Instr} {s t : State} (h : exec i s = .next t) :
    s.fault = none ∧
    ((checkPasses i s = false ∧ t = raise (checkFault i) s) ∨ (checkPasses i s = true ∧ t = afterCommand i s)) := by
  obtain ⟨hf, ⟨hc, ht⟩ | ⟨hc, -⟩⟩ := exec_cases h
  · exact ⟨hf, .inl ⟨hc, ht⟩⟩
  · rw [exec_eq_afterCommand i s hf hc] at h
    cases h
    exact ⟨hf, .inr ⟨hc, rfl⟩⟩

/-- A command that ends without a fault has passed its check. -/
theorem eq_afterCommand_of_fault_none {i : Instr} {s t : State} (h : exec i s = .next t) (ht : t.fault = none) :
    t = afterCommand i s := by
  obtain ⟨-, ⟨-, rfl⟩ | ⟨-, rfl⟩⟩ := exec_next_cases h
  · cases ht
  · rfl

/-- `INIT` passes its check while `init` is false, every other command while it is true (R162). -/
theorem checkPasses_iff (i : Instr) (s : State) : checkPasses i s = true ↔ (i = .init ↔ s.init = false) := by
  cases i <;> simp [checkPasses]

/-- A check reads no field but `init`. -/
theorem checkPasses_congr (i : Instr) {s s' : State} (h : s.init = s'.init) : checkPasses i s = checkPasses i s' := by
  rw [Bool.eq_iff_iff, checkPasses_iff, checkPasses_iff, h]

/-- The fault of a failed check is one its state can raise (R162). -/
theorem checkFault_fits {i : Instr} {s : State} (h : checkPasses i s = false) : FaultFits s.init (checkFault i) := by
  cases i <;> simpa [checkPasses, checkFault, FaultFits] using h

/-! ### What a step can answer -/

/-- The state from which the command runs: the accepted word is taken from those pending (R21). -/
abbrev withCmds (ws : List Word) (s : State) : State := { s with cmds := ws }

/-- What a step answers when it answers a next state: the same state, one that records a fitting fault, or a completed
command's. -/
theorem step_next_cases {s t : State} (h : step s = .next t) :
    s.fault = none ∧
    (t = s ∨
     (∃ ws f, FaultFits s.init f ∧ t = raise f (withCmds ws s)) ∨
     (∃ ws i, checkPasses i s = true ∧ t = afterCommand i (withCmds ws s))) := by
  obtain ⟨hf, ⟨-, ht⟩ | ⟨w, ws, i, -, -, he⟩ | ⟨w, ws, -, hd, ht⟩⟩ := step_cases h
  · exact ⟨hf, .inl ht⟩
  · obtain ⟨-, ⟨hc, ht⟩ | ⟨hc, ht⟩⟩ := exec_next_cases he
    · exact ⟨hf, .inr (.inl ⟨ws, checkFault i, checkFault_fits (s := withCmds ws s) hc, ht⟩)⟩
    · exact ⟨hf, .inr (.inr ⟨ws, i, checkPasses_congr i (s := withCmds ws s) rfl ▸ hc, ht⟩)⟩
  · exact ⟨hf, .inr (.inl ⟨ws, .illegalCommand w, hd, ht⟩)⟩

/-! ### The invariant -/

/-- No clause of the invariant reads the pending words. -/
theorem Inv.withCmds {s : State} (h : Inv s) (ws : List Word) : Inv (withCmds ws s) :=
  ⟨h.drives, h.fresh, h.configured, h.active, h.idle, h.fault, h.errors⟩

/-- Recording a fault that fits keeps the invariant (R162). -/
theorem Inv.raise {s : State} (h : Inv s) {f : Fault} (hf : FaultFits s.init f) : Inv (raise f s) where
  drives := h.drives
  fresh := h.fresh
  configured := h.configured
  active := h.active
  idle := h.idle
  fault := by
    rintro g ⟨⟩
    exact hf
  errors := h.errors

/-- A command past its check ends with both lines configured (R22, R88). -/
theorem Inv.configured_after {s : State} (h : Inv s) {i : Instr} (hc : checkPasses i s = true) :
    (drvAfter s.drv i).sda ≠ .unconf ∧ (drvAfter s.drv i).scl ≠ .unconf ∧ phaseAfter s.phase i ≠ .uninit := by
  cases i with
  | init => exact ⟨nofun, nofun, nofun⟩
  | start => exact ⟨nofun, nofun, nofun⟩
  | stop => exact ⟨nofun, nofun, nofun⟩
  | gcr => exact ⟨nofun, nofun, nofun⟩
  | wrb v => exact ⟨nofun, nofun, (h.configured hc).2.2⟩
  | rdb ack => exact ⟨nofun, nofun, (h.configured hc).2.2⟩
  | crc8 b0 b1 => exact h.configured hc
  | chk b0 b1 c => exact h.configured hc

/-- A command that ends inside a transaction leaves the clock low, if it was low in one before (R90). -/
theorem scl_low_of_active_after {d : Drv} {p : Phase} (h : p = .active → d.scl = .low) (i : Instr) :
    phaseAfter p i = .active → (drvAfter d i).scl = .low := by
  cases i with
  | crc8 b0 b1 => exact h
  | chk b0 b1 c => exact h
  | _ => simp [phaseAfter, drvAfter]

/-- A command that ends outside a transaction leaves the data line released, if it was so outside one before (R90). -/
theorem sda_rel_of_idle_after {d : Drv} {p : Phase} (h : p = .idle → d.sda = .rel) (i : Instr) :
    phaseAfter p i = .idle → (drvAfter d i).sda = .rel := by
  cases i with
  | crc8 b0 b1 => exact h
  | chk b0 b1 c => exact h
  | _ => simp [phaseAfter, drvAfter]

/-- Bits 7 to 3 of an error response are 0 (R30, R64). -/
theorem err_and_reserved_of_fits {i : Instr} {e : Byte} (h : ResponseFits i (.err e)) : e &&& 0xF8 = 0 := by
  cases i with
  | init => cases h
  | start => cases h
  | stop => cases h
  | wrb v => rcases h with ⟨⟨⟩⟩ | ⟨⟨⟩⟩ <;> decide
  | rdb ack => obtain ⟨b, ⟨⟩⟩ := h
  | gcr => rcases h with ⟨⟨⟩⟩ | ⟨⟨⟩⟩ <;> decide
  | crc8 b0 b1 => obtain ⟨b, ⟨⟩⟩ := h
  | chk b0 b1 c => rcases h with ⟨⟨⟩⟩ | ⟨⟨⟩⟩ <;> decide

/-- A command past its check keeps the invariant of a sound block (R22, R24, R30, R88, R90). -/
theorem Inv.afterCommand {s : State} (h : Inv s) (hf : s.fault = none) {i : Instr} (hc : checkPasses i s = true) :
    Inv (afterCommand i s) where
  drives := by simp only [afterCommand_trace, replay_append, h.drives, replay_eventsOf, afterCommand_drv]
  fresh := nofun
  configured _ := by simpa using h.configured_after hc
  active := by simpa using scl_low_of_active_after h.active i
  idle := by simpa using sda_rel_of_idle_after h.idle i
  fault f hs := by cases hf.symm.trans hs
  errors e he := by
    rw [afterCommand_responses, List.mem_append, List.mem_singleton] at he
    obtain old | new := he
    · exact h.errors e old
    · exact err_and_reserved_of_fits (new ▸ responseOf_fits s.envAnswers s.trace i)

/-- Settles O40: waiting, recording a fault and completing a command each keep the invariant. -/
theorem stepKeepsTheInvariant : Obligations.StepKeepsTheInvariant := by
  intro s t h hstep
  obtain ⟨hf, rfl | ⟨ws, f, hfit, rfl⟩ | ⟨ws, i, hc, rfl⟩⟩ := step_next_cases hstep
  · exact h
  · exact (h.withCmds ws).raise hfit
  · exact (h.withCmds ws).afterCommand hf (checkPasses_congr i rfl ▸ hc)

/-- Settles O39: at reset the trace is empty, so every clause reads off the reset values (R35). -/
theorem invariantHoldsAtReset : Obligations.InvariantHoldsAtReset where
  drives := rfl
  fresh _ := ⟨rfl, rfl, rfl⟩
  configured := nofun
  active := nofun
  idle := nofun
  fault := nofun
  errors := nofun

/-! ### The trace and the lines -/

/-- The new events are those appended. -/
theorem newEvents_of_trace {s t : State} {es : List Event} (h : t.trace = s.trace ++ es) : newEvents s t = es := by
  simp [newEvents, h]

/-- A step appends events and leaves the drive states those events make (R25, R88). -/
theorem step_appends {s t : State} (h : step s = .next t) :
    ∃ es, t.trace = s.trace ++ es ∧ t.drv = replay s.drv es := by
  obtain ⟨-, rfl | ⟨ws, f, -, rfl⟩ | ⟨ws, i, -, rfl⟩⟩ := step_next_cases h
  · exact ⟨[], by simp⟩
  · exact ⟨[], by simp⟩
  · exact ⟨eventsOf s.envAnswers s.trace i, rfl, rfl⟩

/-- Reading a line after one was written. -/
theorem driveOf_withDrive (d : Drv) (l m : Line) (x : Drive) :
    driveOf (withDrive d l x) m = if m = l then x else driveOf d m := by
  cases l <;> cases m <;> rfl

/-- No event takes a configured line back to `UNCONF` (R88). -/
theorem driveOf_driveEvent_ne_unconf {d : Drv} {l : Line} (h : driveOf d l ≠ .unconf) (e : Event) :
    driveOf (driveEvent d e) l ≠ .unconf := by
  cases e with
  | low m => rw [driveEvent, driveOf_withDrive]; split <;> simp [h]
  | rel m => rw [driveEvent, driveOf_withDrive]; split <;> simp [h]
  | wait p => exact h
  | smp v => exact h

/-- No run of events takes a configured line back to `UNCONF` (R88). -/
theorem driveOf_replay_ne_unconf {d : Drv} {l : Line} (h : driveOf d l ≠ .unconf) (es : List Event) :
    driveOf (replay d es) l ≠ .unconf := by
  induction es generalizing d with
  | nil => exact h
  | cons e es ih => exact ih (driveOf_driveEvent_ne_unconf h e)

/-- Under the invariant, a line that is `UNCONF` shows that `INIT` has not run (R22). -/
theorem Inv.init_of_unconf {s : State} (h : Inv s) {l : Line} (hl : driveOf s.drv l = .unconf) : s.init = false := by
  cases hi : s.init with
  | false => rfl
  | true =>
    obtain ⟨hsda, hscl, -⟩ := h.configured hi
    cases l with
    | sda => exact absurd hl hsda
    | scl => exact absurd hl hscl

/-- Before `INIT` has run, a step either leaves the lines or is `INIT` (R85, R162). -/
theorem step_before_init {s t : State} (h : step s = .next t) (hi : s.init = false) :
    t.drv = s.drv ∨ (t.init = true ∧ newEvents s t = initEvents) := by
  obtain ⟨-, rfl | ⟨ws, f, -, rfl⟩ | ⟨ws, i, hc, rfl⟩⟩ := step_next_cases h
  · exact .inl rfl
  · exact .inl rfl
  · obtain rfl : i = .init := ((checkPasses_iff i s).mp hc).mpr hi
    exact .inr ⟨rfl, newEvents_of_trace rfl⟩

/-- Settles O28: a step appends events and replays them, no event unconfigures a line, and before `INIT` only `INIT`
changes one. -/
theorem linesChangeOnlyByTracedEvents : Obligations.LinesChangeOnlyByTracedEvents := by
  intro s t hstep
  obtain ⟨es, htrace, hdrv⟩ := step_appends hstep
  refine ⟨?_, fun l hl => ?_, fun l hinv hl hl' => ?_⟩
  · rw [newEvents_of_trace htrace, hdrv]
  · rw [hdrv]
    exact driveOf_replay_ne_unconf hl es
  · have hi := hinv.init_of_unconf hl
    obtain same | ⟨ht, hnew⟩ := step_before_init hstep hi
    · exact absurd (same ▸ hl) hl'
    · exact ⟨hi, ht, hnew⟩

/-- Settles O35: a step only appends events. -/
theorem traceOnlyGrows : Obligations.TraceOnlyGrows := by
  intro s t hstep
  obtain ⟨es, htrace, -⟩ := step_appends hstep
  exact ⟨es, htrace⟩

/-! ### What a command does not read -/

/-- Settles O36: a completed command writes `phaseAfter`, and neither its check nor what it adds reads the phase. -/
theorem phaseIsBookkeeping : Obligations.PhaseIsBookkeeping := by
  refine ⟨fun i s t h ht => ?_, fun i s t p h => ?_⟩
  · obtain rfl := eq_afterCommand_of_fault_none h ht
    cases i <;> rfl
  · have check : checkPasses i { s with phase := p } = checkPasses i s := checkPasses_congr i rfl
    obtain ⟨hf, ⟨hc, rfl⟩ | ⟨hc, rfl⟩⟩ := exec_next_cases h
    · exact ⟨p, exec_raises i _ hf (check.trans hc)⟩
    · exact ⟨phaseAfter p i, exec_eq_afterCommand i _ hf (check.trans hc)⟩

/-- A command that completes from two states of the same view leaves two states of the same view. -/
theorem SameView.afterCommand {s s' : State} (h : SameView s s') (i : Instr) :
    SameView (afterCommand i s) (afterCommand i s') where
  init := rfl
  fault := h.fault
  trace := by simp [h.trace, h.envAnswers]
  envAnswers := by simp [h.trace, h.envAnswers]

/-- Settles O37: the check reads `init`, and what a completed command adds is a function of the scripted answers and the
trace. -/
theorem hiddenStateIsNotRead : Obligations.HiddenStateIsNotRead := by
  intro i s s' t hv h
  have check : checkPasses i s' = checkPasses i s := checkPasses_congr i hv.init.symm
  obtain ⟨hf, ⟨hc, rfl⟩ | ⟨hc, rfl⟩⟩ := exec_next_cases h
  · refine ⟨_, exec_raises i s' (hv.fault ▸ hf) (check.trans hc), ?_, [], by simp⟩
    exact ⟨hv.init, rfl, hv.trace, hv.envAnswers⟩
  · refine ⟨_, exec_eq_afterCommand i s' (hv.fault ▸ hf) (check.trans hc), hv.afterCommand i, [_], rfl, ?_⟩
    simp [hv.trace, hv.envAnswers]

/-! ### Responses, `init` and reset -/

/-- Settles O38: a completed command adds the one response `responseOf`, which fits R64. -/
theorem responsesAreThoseOfTheCommand : Obligations.ResponsesAreThoseOfTheCommand := by
  intro i s t h ht
  obtain rfl := eq_afterCommand_of_fault_none h ht
  have fits := responseOf_fits s.envAnswers s.trace i
  exact ⟨_, rfl, by cases i <;> exact fits⟩

/-- A step never clears `init` (R23). -/
theorem step_keeps_init {s t : State} (h : step s = .next t) (hi : s.init = true) : t.init = true := by
  obtain ⟨-, rfl | ⟨ws, f, -, rfl⟩ | ⟨ws, i, -, rfl⟩⟩ := step_next_cases h
  · exact hi
  · exact hi
  · rfl

/-- `init` after a command (R23). -/
theorem exec_init_iff {i : Instr} {s t : State} (h : exec i s = .next t) :
    t.init = true ↔ s.init = true ∨ i = .init := by
  obtain ⟨-, ⟨hc, rfl⟩ | ⟨hc, rfl⟩⟩ := exec_next_cases h
  · have initialised : i = .init → s.init = true := by
      rintro rfl
      simpa [checkPasses] using hc
    exact ⟨.inl, fun before => before.elim id initialised⟩
  · have first : s.init = false → i = .init := ((checkPasses_iff i s).mp hc).mpr
    exact ⟨fun _ => (Bool.eq_false_or_eq_true s.init).imp_right first, fun _ => rfl⟩

/-- Settles O41: `init` is set by `INIT` alone and kept by every step, and the reset state has it false. -/
theorem nothingUndoesInit : Obligations.NothingUndoesInit := by
  refine ⟨fun i s t h => exec_init_iff h, fun s t h hi => ?_⟩
  have ht := step_keeps_init h hi
  refine ⟨ht, ?_⟩
  rintro rfl
  cases ht

/-- Settles O1: the fields of the reset state, as R35 lists them. -/
theorem resetLeavesBlockUnconfigured : Obligations.ResetLeavesBlockUnconfigured :=
  ⟨rfl, rfl, rfl, rfl, rfl, rfl⟩

/-- Settles O2: a step takes the presented word and dispatches on what it decodes to. -/
theorem stepRunsTheDecodedCommand : Obligations.StepRunsTheDecodedCommand := by
  intro s w rest i hcmds hdecode
  simp [step, takeCommand, hcmds, hdecode]

/-! ### Error values -/

/-- Settles O51: merging is bitwise OR, which is zero only where both operands are, and keeps each bit (R30). -/
theorem mergedErrorsKeepEveryFlag : Obligations.MergedErrorsKeepEveryFlag := by
  refine ⟨fun a b => ?_, fun a b i => ?_, rfl, rfl, rfl, rfl⟩
  · rw [Bool.eq_iff_iff]
    simp [isOk, mergeErr, errOk]
  · exact BitVec.getLsbD_or

end Sys2Proof.Machine
end

section
/-! SUPPORT and PROOFS. The family 20_memory.md: the bits of the address byte (R41). -/

namespace Sys2Proof.Machine

/-! ### The address byte -/

/-- Bit 0 of the address byte is the direction bit: the shifted address is clear there. -/
theorem addrByte_getLsbD_zero (a : BitVec 7) (rw : Bool) : (addrByte a rw).getLsbD 0 = rw := by
  cases rw <;> simp [addrByte]

/-- Above bit 0 the address byte is the address, one place up: the direction bit reaches no further. -/
theorem addrByte_getLsbD_succ (a : BitVec 7) (rw : Bool) {i : Nat} (hi : i < 7) :
    (addrByte a rw).getLsbD (i + 1) = a.getLsbD i := by
  have inByte : i + 1 < 8 := Nat.succ_lt_succ hi
  have direction : (if rw then 1 else 0 : Byte).getLsbD (i + 1) = false := by cases rw <;> simp
  have address : (a.setWidth 8 <<< 1).getLsbD (i + 1) = a.getLsbD i := by simp [inByte]
  rw [addrByte, BitVec.getLsbD_or, address, direction, Bool.or_false]

/-- Settles O50: bit `i` of the upper seven is bit `i + 1` of the byte, so bit `i` of the address (R41). -/
theorem addressByteCarriesAddressAndDirection : Obligations.AddressByteCarriesAddressAndDirection := by
  refine fun a rw => ⟨BitVec.eq_of_getLsbD_eq fun i hi => ?_, addrByte_getLsbD_zero a rw⟩
  calc ((addrByte a rw).extractLsb' 1 7).getLsbD i
    _ = (addrByte a rw).getLsbD (i + 1) := by simp [hi, Nat.add_comm]
    _ = a.getLsbD i := addrByte_getLsbD_succ a rw hi

end Sys2Proof.Machine
end

section
/-! SUPPORT and PROOFS. The family 30_encoding.md: a command word as its six fields (R61), in which the rows of R63, the
encoder and the bullets of R66 are each said once; then the decoder against the encoder and against R66, and what the
assembler reads of a printed line (R68). -/

namespace Sys2Proof.Machine

/-! ### A word is its fields -/

/-- The six fields of a command word (R61). -/
structure WordFields where
  op : BitVec 4
  z : BitVec 3
  a : Bool
  d2 : Byte
  d1 : Byte
  d0 : Byte

/-- The fields of a word, by the table of R61. -/
def fieldsOf (w : Word) : WordFields := ⟨opField w, zField w, aField w, d2Field w, d1Field w, d0Field w⟩

/-- The field values of a command (R61 and the operands column of R63): a field that holds no operand is zero. -/
def fieldsFor (i : Instr) : WordFields :=
  match i with
  | .init => ⟨0x1, 0, false, 0, 0, 0⟩
  | .start => ⟨0x2, 0, false, 0, 0, 0⟩
  | .stop => ⟨0x3, 0, false, 0, 0, 0⟩
  | .wrb v => ⟨0x4, 0, false, 0, 0, v⟩
  | .rdb ack => ⟨0x5, 0, ack, 0, 0, 0⟩
  | .gcr => ⟨0x6, 0, false, 0, 0, 0⟩
  | .crc8 b0 b1 => ⟨0x7, 0, false, b0, b1, 0⟩
  | .chk b0 b1 c => ⟨0x8, 0, false, b0, b1, c⟩

/-- The fields as the bits of R61's table. -/
theorem fieldsOf_eq (w : Word) : fieldsOf w =
    ⟨w.extractLsb' 28 4, w.extractLsb' 25 3, w.getLsbD 24, w.extractLsb' 16 8, w.extractLsb' 8 8, w.extractLsb' 0 8⟩ := rfl

/-- Words that agree in a field agree in each of its bits. -/
theorem getLsbD_eq_of_extractLsb'_eq {w u : Word} {start len i : Nat}
    (h : w.extractLsb' start len = u.extractLsb' start len) (hlo : start ≤ i) (hhi : i < start + len) :
    w.getLsbD i = u.getLsbD i := by
  have hbit := congrArg (·.getLsbD (i - start)) h
  have inField : i - start < len := by omega
  simpa [inField, Nat.add_sub_cancel' hlo] using hbit

/-- The fields cover all 32 bits of a word (R61). -/
theorem fieldsOf_injective : Function.Injective fieldsOf := by
  intro w u h
  obtain ⟨hop, hz, ha, hd2, hd1, hd0⟩ := WordFields.mk.inj h
  refine BitVec.eq_of_getLsbD_eq fun i hi => ?_
  obtain h0 | h1 | h2 | rfl | h25 | h28 :
      i < 8 ∨ (8 ≤ i ∧ i < 16) ∨ (16 ≤ i ∧ i < 24) ∨ i = 24 ∨ (25 ≤ i ∧ i < 28) ∨ 28 ≤ i := by omega
  · exact getLsbD_eq_of_extractLsb'_eq hd0 i.zero_le (by omega)
  · exact getLsbD_eq_of_extractLsb'_eq hd1 h1.1 h1.2
  · exact getLsbD_eq_of_extractLsb'_eq hd2 h2.1 h2.2
  · exact ha
  · exact getLsbD_eq_of_extractLsb'_eq hz h25.1 h25.2
  · exact getLsbD_eq_of_extractLsb'_eq hop h28 (by omega)

/-- A mask acts on each field apart. -/
theorem fieldsOf_and (w m : Word) : fieldsOf (w &&& m) =
    ⟨(fieldsOf w).op &&& (fieldsOf m).op, (fieldsOf w).z &&& (fieldsOf m).z, (fieldsOf w).a && (fieldsOf m).a,
      (fieldsOf w).d2 &&& (fieldsOf m).d2, (fieldsOf w).d1 &&& (fieldsOf m).d1,
      (fieldsOf w).d0 &&& (fieldsOf m).d0⟩ := by
  simp [fieldsOf_eq, BitVec.extractLsb'_and]

/-- Words are joined field by field. -/
theorem fieldsOf_or (w u : Word) : fieldsOf (w ||| u) =
    ⟨(fieldsOf w).op ||| (fieldsOf u).op, (fieldsOf w).z ||| (fieldsOf u).z, (fieldsOf w).a || (fieldsOf u).a,
      (fieldsOf w).d2 ||| (fieldsOf u).d2, (fieldsOf w).d1 ||| (fieldsOf u).d1,
      (fieldsOf w).d0 ||| (fieldsOf u).d0⟩ := by
  simp [fieldsOf_eq, BitVec.extractLsb'_or]

/-- A byte moved up by 16 bits is `D2` (R61). -/
theorem fieldsOf_shiftLeft_16 (b : Byte) : fieldsOf (b.setWidth 32 <<< 16) = ⟨0, 0, false, b, 0, 0⟩ := by
  rw [fieldsOf_eq, WordFields.mk.injEq]
  revert b
  decide

/-- A byte moved up by 8 bits is `D1` (R61). -/
theorem fieldsOf_shiftLeft_8 (b : Byte) : fieldsOf (b.setWidth 32 <<< 8) = ⟨0, 0, false, 0, b, 0⟩ := by
  rw [fieldsOf_eq, WordFields.mk.injEq]
  revert b
  decide

/-- A byte in place is `D0` (R61). -/
theorem fieldsOf_setWidth (b : Byte) : fieldsOf (b.setWidth 32) = ⟨0, 0, false, 0, 0, b⟩ := by
  rw [fieldsOf_eq, WordFields.mk.injEq]
  revert b
  decide

/-- The encoder puts each operand in its field and zeros elsewhere (R61, R68). -/
theorem fieldsOf_encode (i : Instr) : fieldsOf (encode i) = fieldsFor i := by
  cases i with
  | init => rfl
  | start => rfl
  | stop => rfl
  | wrb v =>
    simp only [encode, fieldsOf_or, fieldsOf_setWidth]
    simp [fieldsOf_eq, fieldsFor]
  | rdb ack => cases ack <;> rfl
  | gcr => rfl
  | crc8 b0 b1 =>
    simp only [encode, fieldsOf_or, fieldsOf_shiftLeft_16, fieldsOf_shiftLeft_8]
    simp [fieldsOf_eq, fieldsFor]
  | chk b0 b1 c =>
    simp only [encode, fieldsOf_or, fieldsOf_shiftLeft_16, fieldsOf_shiftLeft_8, fieldsOf_setWidth]
    simp [fieldsOf_eq, fieldsFor]

/-! ### The rows of the opcode map -/

/-- A word selects a row exactly when its fields are those of the row's command, with the word's own operands: the mask
drops the operand fields and holds every other field to the row's value (R63). -/
theorem selects_iff_fieldsOf {r : OpRow} (hr : r ∈ opcodeMap) (w : Word) :
    selects w r = true ↔ fieldsOf w = fieldsFor (instrOf r.op w) := by
  have full4 (x : BitVec 4) : x &&& 15#4 = x := BitVec.and_allOnes
  have full3 (x : BitVec 3) : x &&& 7#3 = x := BitVec.and_allOnes
  have full8 (x : BitVec 8) : x &&& 255#8 = x := BitVec.and_allOnes
  rw [selects, beq_iff_eq, ← fieldsOf_injective.eq_iff, fieldsOf_and]
  simp only [opcodeMap, List.mem_cons, List.not_mem_nil, or_false] at hr
  obtain rfl | rfl | rfl | rfl | rfl | rfl | rfl | rfl := hr <;>
    simp [fieldsOf_eq, instrOf, fieldsFor, d2Field, d1Field, d0Field, aField, full3, full4, full8]

/-- Every command has its row (R63). -/
theorem exists_row (m : Mnemonic) : ∃ r ∈ opcodeMap, r.op = m := by
  cases m <;> decide

theorem fieldsFor_op (i : Instr) : (fieldsFor i).op = opNumber (mnemonicOf i) := by
  cases i <;> rfl

theorem mnemonicOf_instrOf (m : Mnemonic) (w : Word) : mnemonicOf (instrOf m w) = m := by
  cases m <;> rfl

/-- `OP` names one command at most (R63). -/
theorem opNumber_injective : Function.Injective opNumber := by
  intro m n h
  revert h
  cases m <;> cases n <;> decide

/-- Every row fixes `OP` to its own number (R63). -/
theorem opField_of_selects {r : OpRow} (hr : r ∈ opcodeMap) {w : Word} (h : selects w r = true) :
    opField w = opNumber r.op :=
  calc opField w
    _ = (fieldsFor (instrOf r.op w)).op := congrArg WordFields.op ((selects_iff_fieldsOf hr w).mp h)
    _ = opNumber r.op := by rw [fieldsFor_op, mnemonicOf_instrOf]

/-- Settles O7: two rows that a word selects both have its `OP` as their number, and no two rows have one number. -/
theorem opcodeRowsNeverOverlap : Obligations.OpcodeRowsNeverOverlap := by
  intro w
  have distinct : opcodeMap.Pairwise fun r q => r.op ≠ q.op := by decide
  refine distinct.imp_of_mem fun hr hq hne => ?_
  rintro ⟨hwr, hwq⟩
  exact hne (opNumber_injective ((opField_of_selects hr hwr).symm.trans (opField_of_selects hq hwq)))

/-! ### The decoder -/

/-- A word with the fields of a command has that command's operands (R62). -/
theorem instrOf_of_fieldsOf {w : Word} {i : Instr} (h : fieldsOf w = fieldsFor i) : instrOf (mnemonicOf i) w = i := by
  obtain ⟨-, -, ha, hd2, hd1, hd0⟩ := WordFields.mk.inj h
  cases i <;> simp_all [mnemonicOf, instrOf]

/-- What decodes to a command has that command's fields (R63, R65). -/
theorem fieldsOf_of_decode {w : Word} {i : Instr} (h : decode w = some i) : fieldsOf w = fieldsFor i := by
  obtain ⟨r, hfind, rfl⟩ := Option.map_eq_some_iff.mp h
  exact (selects_iff_fieldsOf (List.mem_of_find?_eq_some hfind) w).mp (List.find?_some hfind)

/-- No two commands have the same fields. -/
theorem fieldsFor_injective : Function.Injective fieldsFor := by
  intro i j h
  have hi := fieldsOf_encode i
  have same : mnemonicOf i = mnemonicOf j := opNumber_injective (by rw [← fieldsFor_op, ← fieldsFor_op, h])
  rw [← instrOf_of_fieldsOf hi, same, instrOf_of_fieldsOf (hi.trans h)]

/-- The decoder finds the command whose fields the word has (R63, R65). -/
theorem decode_eq_some_iff {w : Word} {i : Instr} : decode w = some i ↔ fieldsOf w = fieldsFor i := by
  refine ⟨fieldsOf_of_decode, fun h => ?_⟩
  obtain ⟨r, hr, hop⟩ := exists_row (mnemonicOf i)
  have selected : selects w r = true := by
    rw [selects_iff_fieldsOf hr, hop, instrOf_of_fieldsOf h, h]
  obtain ⟨q, hq⟩ := Option.isSome_iff_exists.mp (List.find?_isSome.mpr ⟨r, hr, selected⟩)
  have found : decode w = some (instrOf q.op w) := by rw [decode, hq, Option.map_some]
  rw [found, fieldsFor_injective ((fieldsOf_of_decode found).symm.trans h)]

/-- Settles O5: an encoded command has the command's fields, which is what the decoder looks for. -/
theorem decodeOfEncodeIsTheCommand : Obligations.DecodeOfEncodeIsTheCommand :=
  fun i => decode_eq_some_iff.mpr (fieldsOf_encode i)

/-- Settles O6: the word and the encoding have the same fields, and a word is its fields. -/
theorem encodeOfDecodeIsTheWord : Obligations.EncodeOfDecodeIsTheWord :=
  fun _ i h => fieldsOf_injective ((fieldsOf_encode i).trans (decode_eq_some_iff.mp h).symm)

/-! ### Illegal words -/

/-- An assigned `OP` is the number of a command (R63, R66). -/
theorem exists_opNumber_of_opAssigned {w : Word} (h : opAssigned w = true) : ∃ m, opField w = opNumber m := by
  have numbers : ∀ o : BitVec 4, (1 ≤ o.toNat && o.toNat ≤ 8) = true → ∃ r ∈ opcodeMap, o = opNumber r.op := by decide
  obtain ⟨r, -, hr⟩ := numbers (opField w) h
  exact ⟨r.op, hr⟩

/-- The words R66 does not list are those with the fields of some command. -/
theorem wellFormedWord_iff (w : Word) : wellFormedWord w = true ↔ ∃ i, fieldsOf w = fieldsFor i := by
  constructor
  · intro h
    simp only [wellFormedWord, Bool.and_eq_true] at h
    obtain ⟨⟨⟨⟨hop, hz⟩, ha⟩, hd0⟩, hd12⟩ := h
    obtain ⟨m, hm⟩ := exists_opNumber_of_opAssigned hop
    refine ⟨instrOf m w, ?_⟩
    cases m <;> simp_all [fieldsOf, instrOf, fieldsFor, zClear, aClear, d0Clear, d12Clear, opNumber]
  · rintro ⟨i, h⟩
    obtain ⟨hop, hz, ha, hd2, hd1, hd0⟩ := WordFields.mk.inj h
    cases i <;> simp_all [fieldsFor, wellFormedWord, opAssigned, zClear, aClear, d0Clear, d12Clear, opNumber]

/-- Settles O8: a word decodes, and is well formed, exactly when it has the fields of some command; on any other word a step
raises the fault. -/
theorem illegalWordsAreExactlyTheListedOnes : Obligations.IllegalWordsAreExactlyTheListedOnes := by
  have illegal (w : Word) : decode w = none ↔ wellFormedWord w = false := by
    rw [← Bool.not_eq_true, wellFormedWord_iff, Option.eq_none_iff_forall_ne_some, not_exists]
    exact forall_congr' fun i => not_congr decode_eq_some_iff
  refine ⟨illegal, fun s w rest hf hcmds hw => ?_⟩
  have hd : decode w = none := (illegal w).mpr hw
  simp [step, takeCommand, hcmds, hd, raiseIllegal, whenSound, hf, raise]

/-- Settles O4: nine of the words are encodings, and R66 lists the other three. -/
theorem opcodeMapWordsDecode : Obligations.OpcodeMapWordsDecode :=
  have legal := decodeOfEncodeIsTheCommand
  have illegal (w : Word) (h : wellFormedWord w = false) := (illegalWordsAreExactlyTheListedOnes.1 w).mpr h
  ⟨legal .init, legal .start, legal .stop, legal (.wrb 0x88), legal (.rdb true), legal (.rdb false), legal .gcr,
    legal (.crc8 0xBE 0xEF), legal (.chk 0xBE 0xEF 0x92), illegal _ (by decide), illegal _ (by decide),
    illegal _ (by decide)⟩

/-! ### The assembler's text

A printed line is a mnemonic and its operands, each a token: what the reader divides lines by (line ends, `;`, blanks and
commas) stands only between tokens, so the reader finds the same tokens again. -/

/-- A mnemonic or an operand as it is printed: not empty, and without the characters that divide a text (R68). -/
def IsToken (cs : List Char) : Prop :=
  cs ≠ [] ∧ ∀ c ∈ cs, isBlank c = false ∧ c ≠ ',' ∧ c ≠ ';' ∧ c ≠ '\n'

/-- Text with no blank at either end. -/
def Tidy (cs : List Char) : Prop :=
  (∃ c ∈ cs.head?, isBlank c = false) ∧ ∃ c ∈ cs.getLast?, isBlank c = false

/-- Operands as a printed line lists them. -/
def operandText : List (List Char) → List Char
  | [] => []
  | [p] => p
  | p :: q :: ps => p ++ ',' :: ' ' :: operandText (q :: ps)

/-- What a printed line holds after its mnemonic. -/
def lineTail (ops : List (List Char)) : List Char := if ops = [] then [] else ' ' :: operandText ops

theorem isToken_printName (m : Mnemonic) : IsToken (printName m) := by
  cases m <;> simp [IsToken, printName, isBlank]

theorem isToken_printByte (v : Byte) : IsToken (printByte v) := by
  refine ⟨List.cons_ne_nil _ _, fun c hc => ?_⟩
  simpa [and_assoc] using List.all_eq_true.mp (printByte_plain v) c hc

theorem IsToken.tidy {p : List Char} (hp : IsToken p) : Tidy p := by
  obtain ⟨hne, hplain⟩ := hp
  exact ⟨⟨p.head hne, List.head?_eq_some_head hne, (hplain _ (List.head_mem hne)).1⟩,
    p.getLast hne, List.getLast?_eq_some_getLast hne, (hplain _ (List.getLast_mem hne)).1⟩

/-- What stands between two tidy texts is at neither end. -/
theorem Tidy.append {p q : List Char} (hp : Tidy p) (hq : Tidy q) (mid : List Char) : Tidy (p ++ (mid ++ q)) := by
  obtain ⟨⟨c, hc, hcb⟩, -⟩ := hp
  obtain ⟨-, d, hd, hdb⟩ := hq
  rw [Option.mem_def] at hc hd
  exact ⟨⟨c, by simp [hc], hcb⟩, d, by simp [hd], hdb⟩

theorem trim_cons_blank {c : Char} (hc : isBlank c = true) (cs : List Char) : trim (c :: cs) = trim cs := by
  simp [trim, hc]

theorem trim_of_tidy {cs : List Char} (h : Tidy cs) : trim cs = cs := by
  have keeps {l : List Char} (h : ∃ c ∈ l.head?, isBlank c = false) : l.dropWhile isBlank = l := by
    cases l <;> simp_all
  rw [trim, keeps h.1, keeps (by rw [List.head?_reverse]; exact h.2), List.reverse_reverse]

/-- Text without the separator is one piece. -/
theorem pieces_of_notMem {sep : Char} {cs : List Char} (h : sep ∉ cs) : pieces sep cs = [cs] := by
  induction cs with
  | nil => rfl
  | cons c cs ih =>
    rw [List.mem_cons, not_or] at h
    simp [pieces, Ne.symm h.1, ih h.2]

/-- Text up to a separator is the first piece. -/
theorem pieces_append_cons {sep : Char} {p : List Char} (h : sep ∉ p) (cs : List Char) :
    pieces sep (p ++ sep :: cs) = p :: pieces sep cs := by
  induction p with
  | nil => simp [pieces]
  | cons c p ih =>
    rw [List.mem_cons, not_or] at h
    simp [pieces, Ne.symm h.1, ih h.2]

theorem pieces_ne_nil (sep : Char) (cs : List Char) : pieces sep cs ≠ [] := by
  cases cs with
  | nil => simp [pieces]
  | cons c cs =>
    rw [pieces]
    split
    · simp
    · split <;> simp

/-- A blank before the first piece is trimmed off it. -/
theorem map_trim_pieces_cons_blank {sep c : Char} (hc : isBlank c = true) (hsep : c ≠ sep) (cs : List Char) :
    (pieces sep (c :: cs)).map trim = (pieces sep cs).map trim := by
  obtain ⟨p, ps, h⟩ := List.exists_cons_of_ne_nil (pieces_ne_nil sep cs)
  simp [pieces, hsep, h, trim_cons_blank hc]

/-- Listed operands are found again between the commas. -/
theorem map_trim_pieces_operandText {ops : List (List Char)} (hne : ops ≠ []) (h : ∀ p ∈ ops, IsToken p) :
    (pieces ',' (operandText ops)).map trim = ops := by
  have noComma {p : List Char} (hp : IsToken p) : ',' ∉ p := fun hc => (hp.2 _ hc).2.1 rfl
  induction ops using operandText.induct with
  | case1 => exact absurd rfl hne
  | case2 p =>
    have hp : IsToken p := h p List.mem_cons_self
    simp [operandText, pieces_of_notMem (noComma hp), trim_of_tidy hp.tidy]
  | case3 p q ps ih =>
    have hp : IsToken p := h p List.mem_cons_self
    rw [operandText, pieces_append_cons (noComma hp), List.map_cons, trim_of_tidy hp.tidy,
      map_trim_pieces_cons_blank (by decide) (by decide), ih (by simp) fun r hr => h r (List.mem_cons_of_mem p hr)]

theorem tidy_operandText {ops : List (List Char)} (hne : ops ≠ []) (h : ∀ p ∈ ops, IsToken p) :
    Tidy (operandText ops) := by
  induction ops using operandText.induct with
  | case1 => exact absurd rfl hne
  | case2 p => exact (h p List.mem_cons_self).tidy
  | case3 p q ps ih =>
    have rest := ih (by simp) fun r hr => h r (List.mem_cons_of_mem p hr)
    exact (h p List.mem_cons_self).tidy.append rest [',', ' ']

/-- Listed operands hold no comment and no line end. -/
theorem operandText_oneLine {ops : List (List Char)} (h : ∀ p ∈ ops, IsToken p) :
    ∀ c ∈ operandText ops, c ≠ ';' ∧ c ≠ '\n' := by
  induction ops using operandText.induct with
  | case1 => simp [operandText]
  | case2 p => exact fun c hc => ((h p List.mem_cons_self).2 c hc).2.2
  | case3 p q ps ih =>
    have first : ∀ c ∈ p, c ≠ ';' ∧ c ≠ '\n' := fun c hc => ((h p List.mem_cons_self).2 c hc).2.2
    have rest := ih fun r hr => h r (List.mem_cons_of_mem p hr)
    simp only [operandText, List.mem_append, List.mem_cons]
    rintro c (hc | rfl | rfl | hc)
    · exact first c hc
    · decide
    · decide
    · exact rest c hc

theorem operandsOf_lineTail {ops : List (List Char)} (h : ∀ p ∈ ops, IsToken p) : operandsOf (lineTail ops) = ops := by
  by_cases hne : ops = []
  · subst hne; rfl
  · have tidy := tidy_operandText hne h
    have hcut := map_trim_pieces_operandText hne h
    rw [lineTail, if_neg hne, operandsOf, trim_cons_blank (by decide), trim_of_tidy tidy]
    cases htext : operandText ops with
    | nil => simp [htext, Tidy] at tidy
    | cons c cs => simpa [htext] using hcut

/-- The mnemonic is the line up to the first blank. -/
theorem takeWhile_line {name : List Char} (hn : IsToken name) (ops : List (List Char)) :
    (name ++ lineTail ops).takeWhile (!isBlank ·) = name := by
  have tail : (lineTail ops).takeWhile (!isBlank ·) = [] := by
    rw [lineTail]
    split <;> simp [isBlank]
  rw [List.takeWhile_append_of_pos fun c hc => by simp [(hn.2 c hc).1], tail, List.append_nil]

theorem tidy_line {name : List Char} {ops : List (List Char)} (hn : IsToken name) (h : ∀ p ∈ ops, IsToken p) :
    Tidy (name ++ lineTail ops) := by
  by_cases hne : ops = []
  · simpa [lineTail, hne] using hn.tidy
  · simpa [lineTail, hne] using hn.tidy.append (tidy_operandText hne h) [' ']

theorem line_oneLine {name : List Char} {ops : List (List Char)} (hn : IsToken name) (h : ∀ p ∈ ops, IsToken p) :
    ∀ c ∈ name ++ lineTail ops, c ≠ ';' ∧ c ≠ '\n' := by
  have rest := operandText_oneLine h
  intro c hc
  rw [List.mem_append, lineTail] at hc
  obtain hc | hc := hc
  · exact (hn.2 c hc).2.2
  · split at hc
    · simp at hc
    · obtain rfl | hc := List.mem_cons.mp hc
      · decide
      · exact rest c hc

/-- A line of a mnemonic and its operands reads as the item they name. -/
theorem parseLine_line {name : List Char} {ops : List (List Char)} (hn : IsToken name) (h : ∀ p ∈ ops, IsToken p) :
    parseLine (name ++ lineTail ops) = (itemOf name ops).map some := by
  have noComment : beforeComment (name ++ lineTail ops) = name ++ lineTail ops :=
    List.takeWhile_eq_self_iff.mpr fun c hc => by simpa using (line_oneLine hn h c hc).1
  have hname := takeWhile_line hn ops
  rw [parseLine, noComment, trim_of_tidy (tidy_line hn h)]
  split
  next hnil => exact absurd (List.append_eq_nil_iff.mp hnil).1 hn.1
  next c cs hline =>
    rw [← hline]
    simp [hname, operandsOf_lineTail h]

/-- A text of one such line is the one item. -/
theorem assemble_line {name : List Char} {ops : List (List Char)} {i : AsmItem} (hn : IsToken name)
    (h : ∀ p ∈ ops, IsToken p) (hi : itemOf name ops = some i) : assemble (name ++ lineTail ops) = some [i] := by
  have noLineEnd : '\n' ∉ name ++ lineTail ops := fun hc => (line_oneLine hn h _ hc).2 rfl
  simp [assemble, pieces_of_notMem noLineEnd, parseLines, parseLine_line hn h, hi]

/-- The operands of a command as `printInstr` prints them. -/
def printOperands (i : Instr) : List (List Char) :=
  match i with
  | .init => []
  | .start => []
  | .stop => []
  | .wrb v => [printByte v]
  | .rdb ack => [if ack then ['A', 'C', 'K'] else ['N', 'A', 'C', 'K']]
  | .gcr => []
  | .crc8 b0 b1 => [printByte b0, printByte b1]
  | .chk b0 b1 c => [printByte b0, printByte b1, printByte c]

theorem printInstr_eq_line (i : Instr) : printInstr i = printName (mnemonicOf i) ++ lineTail (printOperands i) := by
  cases i <;> rfl

theorem isToken_printOperands (i : Instr) : ∀ p ∈ printOperands i, IsToken p := by
  cases i with
  | rdb ack => cases ack <;> simp [printOperands, IsToken, isBlank]
  | _ => simp [printOperands, isToken_printByte]

/-- The reader's table gives a printed command's mnemonic and operands that command. -/
theorem itemOf_printed (i : Instr) : itemOf (printName (mnemonicOf i)) (printOperands i) = some (.cmd i) := by
  cases i with
  | rdb ack => cases ack <;> rfl
  | _ => simp [itemOf, printName, mnemonicOf, printOperands, fieldValue_printByte]

/-- Settles O9: a printed command is a line of tokens, which the reader divides as it was put together; the words are the
encoder's own equations. -/
theorem assemblerReadsPrintedCommands : Obligations.AssemblerReadsPrintedCommands := by
  refine ⟨fun i => ?_, fun v b0 b1 c => ⟨rfl, rfl, rfl, rfl, rfl⟩⟩
  rw [printInstr_eq_line]
  exact assemble_line (isToken_printName _) (isToken_printOperands i) (itemOf_printed i)

end Sys2Proof.Machine
end

section
/-! SUPPORT and PROOFS. The family 40_bus_framing.md: the primitives and the pulse (R80 to R84), the framing commands (R85 to
R87), and what the events of a command are on the bus: the condition of each SDA event and the clock pulses (R89 to R91). -/

namespace Sys2Proof.Machine

/-! ### Primitives and pulses -/

/-- A sample from any state (R83): on a data line that the block does not release it is 0. -/
theorem sample_eq (s : State) :
    sample s = ((if s.drv.sda = .rel then envDraw s.envAnswers s.trace else false),
      { s with
        trace := s.trace ++ [.smp (if s.drv.sda = .rel then envDraw s.envAnswers s.trace else false)]
        envAnswers := s.envAnswers.tail }) := rfl

/-- A pulse up to its sample point (R84). -/
theorem pulseRise_eq (s : State) :
    pulseRise s = { s with drv := ⟨s.drv.sda, .rel⟩, trace := s.trace ++ riseEvents } := by
  simp [pulseRise, wait, release, append, setDrive, withDrive, riseEvents]

/-- A pulse after its sample point (R84). -/
theorem pulseFall_eq (s : State) :
    pulseFall s = { s with drv := ⟨s.drv.sda, .low⟩, trace := s.trace ++ fallEvents } := by
  simp [pulseFall, wait, driveLow, append, setDrive, withDrive, fallEvents]

/-- Settles O10: each primitive is one assignment and one event, and the wire follows the drive just set (R27). -/
theorem linePrimitivesSetOneLineAndTraceIt : Obligations.LinePrimitivesSetOneLineAndTraceIt := by
  refine ⟨fun s => rfl, fun s => rfl, fun s => rfl, fun s => rfl, fun p s => rfl, fun l s e => ?_⟩
  have released : driveOf (release l s).drv l = .rel := by simp [release, driveOf_withDrive]
  have driven : driveOf (driveLow l s).drv l = .low := by simp [driveLow, driveOf_withDrive]
  rw [released, driven]
  exact ⟨rfl, rfl⟩

/-- Settles O11: the level is the draw on a released line and 0 on a driven one, as the wire is (R27). -/
theorem sampleReadsTheWiredLevel : Obligations.SampleReadsTheWiredLevel := by
  refine ⟨sample_eq, fun s hconf => ?_, fun tr => rfl⟩
  rw [sample_eq]
  cases hsda : s.drv.sda with
  | unconf => exact absurd hsda hconf
  | low => rfl
  | rel => rfl

/-- Settles O12: a pulse is its rise and its fall, with the sample between them. -/
theorem pulseHasFiveOrSixEvents : Obligations.PulseHasFiveOrSixEvents := by
  refine ⟨pulse_eq, fun s => ⟨?_, ?_⟩⟩
  · simp [pulseSample, pulseFall_eq, sample_eq, pulseRise_eq]
  · simp [pulseSample, pulseFall_eq, sample_eq, pulseRise_eq, riseEvents, fallEvents]

/-! ### The framing commands -/

/-- The whole state a completed command leaves, its drive states as R90 gives them. -/
theorem afterCommand_eq (i : Instr) (s : State) :
    afterCommand i s =
      { s with
        drv := drvAfter s.drv i
        init := true
        phase := phaseAfter s.phase i
        trace := s.trace ++ eventsOf s.envAnswers s.trace i
        responses := s.responses ++ [responseOf s.envAnswers s.trace i]
        envAnswers := s.envAnswers.drop (samplesOf s.envAnswers s.trace i) } := by
  rw [← afterCommand_drv]
  rfl

/-- Settles O13: `INIT` past its check ends in `afterCommand`, and a second one fails its check (R85). -/
theorem initReleasesBothLines : Obligations.InitReleasesBothLines := by
  refine ⟨rfl, fun s hf => ⟨fun hi => ?_, fun hi => ?_⟩⟩
  · rw [exec_eq_afterCommand .init s hf (by simp [checkPasses, hi]), afterCommand_eq]
    rfl
  · exact exec_raises .init s hf (by simp [checkPasses, hi])

/-- Settles O14: `START` past its check ends in `afterCommand`, and before `INIT` it fails its check (R86). -/
theorem startMakesAStartCondition : Obligations.StartMakesAStartCondition := by
  refine ⟨rfl, fun s hf => ⟨fun hi => ?_, fun hi => exec_raises .start s hf hi⟩⟩
  rw [exec_eq_afterCommand .start s hf hi, afterCommand_eq, ← hi]
  rfl

/-- Settles O15: `STOP` past its check ends in `afterCommand`, and before `INIT` it fails its check (R87). -/
theorem stopMakesAStopCondition : Obligations.StopMakesAStopCondition := by
  refine ⟨rfl, fun s hf => ⟨fun hi => ?_, fun hi => exec_raises .stop s hf hi⟩⟩
  rw [exec_eq_afterCommand .stop s hf hi, afterCommand_eq, ← hi]
  rfl

/-- A command that ends without a fault leaves the drive states of R90 and the phase of R24. -/
theorem drv_phase_of_fault_none {i : Instr} {s t : State} (h : exec i s = .next t) (ht : t.fault = none) :
    t.drv = drvAfter s.drv i ∧ t.phase = phaseAfter s.phase i := by
  obtain rfl := eq_afterCommand_of_fault_none h ht
  exact ⟨afterCommand_drv i s, afterCommand_phase i s⟩

/-- A step keeps the clock low inside a transaction (R90): waiting and a fault change neither, and a completed command that
ends inside one leaves the clock low. -/
theorem step_keeps_scl_low {s t : State} (h : step s = .next t) (hs : s.phase = .active → s.drv.scl = .low) :
    t.phase = .active → t.drv.scl = .low := by
  obtain ⟨-, rfl | ⟨ws, f, -, rfl⟩ | ⟨ws, i, -, rfl⟩⟩ := step_next_cases h
  · exact hs
  · exact hs
  · simpa using scl_low_of_active_after hs i

/-- Settles O27: R90's table is `drvAfter` and `phaseAfter`, a row for each command. -/
theorem driveStateAtTheEndOfEachCommand : Obligations.DriveStateAtTheEndOfEachCommand :=
  ⟨fun _ _ h ht => drv_phase_of_fault_none h ht, fun _ _ h ht => drv_phase_of_fault_none h ht,
    fun _ _ h ht => drv_phase_of_fault_none h ht, fun _ _ _ h ht => drv_phase_of_fault_none h ht,
    fun _ _ _ h ht => drv_phase_of_fault_none h ht, fun _ _ h ht => drv_phase_of_fault_none h ht,
    fun _ _ _ _ h ht => drv_phase_of_fault_none h ht, fun _ _ _ _ _ h ht => drv_phase_of_fault_none h ht,
    fun _ _ h hs => step_keeps_scl_low h hs⟩

/-! ### The condition of each SDA event

A command's events are pieces in which SDA changes at most once, so its conditions are read off piece by piece: one for the
first SDA event, which depends on the drive states before the command, and data changes after it. -/

/-- The events of a command past its check are those `eventsOf` lists. -/
theorem newEvents_of_exec {i : Instr} {s t : State} (h : exec i s = .next t) (hc : checkPasses i s = true) :
    newEvents s t = eventsOf s.envAnswers s.trace i := by
  obtain ⟨hf, -⟩ := exec_next_cases h
  rw [exec_eq_afterCommand i s hf hc] at h
  cases h
  exact newEvents_of_trace rfl

/-- A run's conditions are those of its parts, each from the drive states the parts before it leave. -/
theorem sdaConditions_append (d : Drv) (xs ys : List Event) :
    sdaConditions d (xs ++ ys) = sdaConditions d xs ++ sdaConditions (replay d xs) ys := by
  induction xs generalizing d with
  | nil => rfl
  | cons x xs ih =>
    by_cases hx : isSdaEvent x <;> simp [sdaConditions, hx, ih]

/-- Writing a level is an SDA event (R11). -/
theorem isSdaEvent_levelEvent (b : Bool) : isSdaEvent (levelEvent b) = true := by cases b <;> rfl

/-- With the clock low every SDA event is a data change (R89). -/
theorem conditionOf_of_scl_low {d : Drv} (h : d.scl = .low) {e : Event} (he : isSdaEvent e = true) :
    conditionOf d e = some .dataChange := by
  simp [conditionOf, h, he]

/-- From both lines released, writing 0 is a start condition and writing 1 is none (R89, R91). -/
theorem conditionOf_levelEvent_released (b : Bool) :
    conditionOf ⟨.rel, .rel⟩ (levelEvent b) = if b then none else some .start := by
  cases b <;> decide

/-- Releasing SDA never makes a start condition (R89). -/
theorem conditionOf_relSda_ne_start (d : Drv) : conditionOf d (.rel .sda) ≠ some .start := by
  unfold conditionOf
  split_ifs with hdata hstart hstop
  · nofun
  · cases hstart.1
  · nofun
  · nofun

/-- Releasing SDA makes a stop condition only where SDA was low with the clock released (R89). -/
theorem conditionOf_relSda_ne_stop {d : Drv} (h : d.scl = .rel → d.sda = .rel) :
    conditionOf d (.rel .sda) ≠ some .stop := by
  unfold conditionOf
  split_ifs with hdata hstart hstop
  · nofun
  · nofun
  · obtain ⟨-, hsda, hscl⟩ := hstop
    cases hsda.symm.trans (h hscl)
  · nofun

/-- The first SDA event of a run makes the run's first condition. -/
theorem sdaConditions_cons_of_sda {e : Event} (he : isSdaEvent e = true) (d : Drv) (es : List Event) :
    sdaConditions d (e :: es) = conditionOf d e :: sdaConditions (driveEvent d e) es := if_pos he

/-- A pulse has no SDA event. -/
theorem sdaConditions_pulse (d : Drv) : sdaConditions d (riseEvents ++ fallEvents) = [] := rfl

/-- A written bit has one SDA event, its level. -/
theorem sdaConditions_writtenBit (d : Drv) (b : Bool) :
    sdaConditions d (writtenBit b) = [conditionOf d (levelEvent b)] := by
  rw [writtenBit, sdaConditions_cons_of_sda (isSdaEvent_levelEvent b), sdaConditions_pulse]

/-- A sampled bit has no SDA event. -/
theorem sdaConditions_sampledBit (d : Drv) (b : Bool) : sdaConditions d (sampledBit b) = [] := rfl

/-- Bits that each end with SCL low leave it low, if there is one. -/
theorem replay_flatMap_scl_low {f : Bool → List Event} (h : ∀ d b, (replay d (f b)).scl = .low) {bs : List Bool}
    (hbs : bs ≠ []) (d : Drv) : (replay d (bs.flatMap f)).scl = .low := by
  obtain rfl | ⟨before, b, rfl⟩ := List.eq_nil_or_concat bs
  · exact absurd rfl hbs
  · simp [h]

/-- Bits written with the clock low are data changes. -/
theorem sdaConditions_writtenBits {d : Drv} (h : d.scl = .low) (bs : List Bool) :
    sdaConditions d (bs.flatMap writtenBit) = List.replicate bs.length (some .dataChange) := by
  induction bs generalizing d with
  | nil => rfl
  | cons b bs ih =>
    rw [List.flatMap_cons, sdaConditions_append, sdaConditions_writtenBit,
      conditionOf_of_scl_low h (isSdaEvent_levelEvent b), replay_writtenBit, ih rfl]
    rfl

/-- A run of sampled bits has no SDA event. -/
theorem sdaConditions_sampledBits (d : Drv) (bs : List Bool) : sdaConditions d (bs.flatMap sampledBit) = [] := by
  induction bs generalizing d with
  | nil => rfl
  | cons b bs ih => rw [List.flatMap_cons, sdaConditions_append, sdaConditions_sampledBit, ih, List.nil_append]

/-- A `WRB`'s conditions: that of bit 7's level, then data changes for the other seven bits and the release (R91). -/
theorem sdaConditions_wrbEvents (d : Drv) (v : Byte) (a : Bool) :
    sdaConditions d (wrbEvents v a) =
      conditionOf d (levelEvent (v.getLsbD 7)) :: List.replicate 8 (some .dataChange) := by
  have shape : wrbEvents v a = writtenBit (v.getLsbD 7) ++
      ((bitsMSB v).tail.flatMap writtenBit ++ .rel .sda :: sampledBit a) := by simp [wrbEvents, writtenByte, bitsMSB]
  have clock (e : Drv) : (replay e ((bitsMSB v).tail.flatMap writtenBit)).scl = .low :=
    replay_flatMap_scl_low (fun e b => by rw [replay_writtenBit]) (List.cons_ne_nil _ _) e
  rw [shape, sdaConditions_append, sdaConditions_append, sdaConditions_writtenBit, replay_writtenBit,
    sdaConditions_writtenBits rfl, sdaConditions_cons_of_sda rfl, conditionOf_of_scl_low (clock _) rfl,
    sdaConditions_sampledBit]
  rfl

/-- An `RDB`'s conditions: that of the first release, then data changes for the acknowledge and the last release (R91). -/
theorem sdaConditions_rdbEvents (d : Drv) {bs : List Bool} (hbs : bs ≠ []) (ack : Bool) :
    sdaConditions d (rdbEvents bs ack) = conditionOf d (.rel .sda) :: List.replicate 2 (some .dataChange) := by
  have shape : rdbEvents bs ack = .rel .sda :: (bs.flatMap sampledBit ++ (writtenBit (!ack) ++ [.rel .sda])) := by
    simp [rdbEvents, writtenBit]
  have clock (e : Drv) : (replay e (bs.flatMap sampledBit)).scl = .low :=
    replay_flatMap_scl_low (fun e b => by rw [replay_sampledBit]) hbs e
  rw [shape, sdaConditions_cons_of_sda rfl, sdaConditions_append, sdaConditions_sampledBits, sdaConditions_append,
    sdaConditions_writtenBit, conditionOf_of_scl_low (clock _) (isSdaEvent_levelEvent _), replay_writtenBit]
  rfl

/-- The level a byte transfer first writes on SDA (R100, R101): a `WRB`'s bit 7, and 1 for an `RDB`, which releases it. It is
used of no other command. -/
def firstLevel : Instr → Bool
  | .wrb v => v.getLsbD 7
  | _ => true

/-- A byte transfer's conditions: that of the first level it writes, then data changes (R91). -/
theorem sdaConditions_byteTransfer {i : Instr} (hi : (∃ v, i = .wrb v) ∨ ∃ ack, i = .rdb ack) {s t : State}
    (hinit : s.init = true) (h : exec i s = .next t) :
    ∃ n, sdaConditions s.drv (newEvents s t) =
      conditionOf s.drv (levelEvent (firstLevel i)) :: List.replicate n (some .dataChange) := by
  obtain ⟨v, rfl⟩ | ⟨ack, rfl⟩ := hi
  · rw [newEvents_of_exec h hinit]
    exact ⟨8, sdaConditions_wrbEvents s.drv v _⟩
  · rw [newEvents_of_exec h hinit]
    refine ⟨2, sdaConditions_rdbEvents s.drv ?_ ack⟩
    simp [drawnBits]

/-- Settles O29: with the clock low the first condition is a data change as well, and from released lines it is a start
condition exactly where the first level is 0. -/
theorem byteTransfersKeepTheFraming : Obligations.ByteTransfersKeepTheFraming := by
  intro i s t hi hinit h
  obtain ⟨n, conditions⟩ := sdaConditions_byteTransfer hi hinit h
  rw [conditions]
  refine ⟨fun hlow c hc => ?_, fun hrel => ⟨_, _, rfl, fun c hc => List.eq_of_mem_replicate hc, ?_⟩⟩
  · obtain rfl | hc := List.mem_cons.mp hc
    · exact conditionOf_of_scl_low hlow (isSdaEvent_levelEvent _)
    · exact List.eq_of_mem_replicate hc
  · rw [hrel, conditionOf_levelEvent_released]
    refine ⟨?_, ?_, ?_⟩
    · rintro v rfl hv
      rw [firstLevel, hv]
      rfl
    · rintro v rfl hv
      rw [firstLevel, hv]
      rfl
    · rintro ack rfl
      rfl

/-- R183 allows a byte transfer only inside a transaction. -/
theorem active_of_bytesInside {p : Phase} {i : Instr} {is : List Instr}
    (hi : (∃ v, i = .wrb v) ∨ ∃ ack, i = .rdb ack) (h : bytesInside p (i :: is) = true) : p = .active := by
  have allowed : (p == .active || (mnemonicOf i != .wrb && mnemonicOf i != .rdb)) = true := (Bool.and_eq_true_iff.mp h).1
  obtain ⟨v, rfl⟩ | ⟨ack, rfl⟩ := hi <;> simpa [mnemonicOf] using allowed

/-- Settles O43: R183 allows a byte transfer only inside a transaction, where the invariant has the clock low (R90). -/
theorem bytesInsideTransactionsAreData : Obligations.BytesInsideTransactionsAreData := by
  intro i is s t hinv hinit hi hinside h
  exact (byteTransfersKeepTheFraming i s t hi hinit h).1 (hinv.active (active_of_bytesInside hi hinside))

/-- `START`'s conditions: that of its first release, then the start condition (R86). -/
theorem sdaConditions_startEvents (d : Drv) :
    sdaConditions d startEvents = [conditionOf d (.rel .sda), some .start] := rfl

/-- `STOP`'s conditions: its SDA goes low with the clock low, then is released with the clock released (R87). -/
theorem sdaConditions_stopEvents (d : Drv) : sdaConditions d stopEvents = [some .dataChange, some .stop] := rfl

/-- Settles O30: `START`'s first release is no start condition, and no stop condition from a data line already released. -/
theorem framingCommandsMakeOneCondition : Obligations.FramingCommandsMakeOneCondition := by
  intro s t hinit _ _
  refine ⟨fun h => ?_, fun h => ?_⟩
  · rw [newEvents_of_exec h hinit, eventsOf, sdaConditions_startEvents]
    refine ⟨?_, fun hrel => ?_⟩
    · simp [conditionOf_relSda_ne_start]
    · simp [conditionOf_relSda_ne_stop hrel]
  · rw [newEvents_of_exec h hinit, eventsOf, sdaConditions_stopEvents]
    exact ⟨rfl, rfl⟩

/-! ### Clock pulses

From SCL low, every piece of a byte transfer makes a fixed number of clock pulses and ends with SCL low again, so the counts
of the pieces add up. -/

/-- A run that, from SCL low, makes `n` clock pulses (R89) and leaves SCL low, whatever events follow it. -/
def MakesPulses (n : Nat) (xs : List Event) : Prop :=
  ∀ d : Drv, d.scl = .low →
    (replay d xs).scl = .low ∧ ∀ es, clockPulses d (xs ++ es) = n + clockPulses (replay d xs) es

/-- The count for the run alone. -/
theorem MakesPulses.clockPulses_eq {n : Nat} {xs : List Event} (h : MakesPulses n xs) {d : Drv} (hd : d.scl = .low) :
    clockPulses d xs = n := by
  simpa [clockPulses, pulsesFrom] using (h d hd).2 []

/-- The pulses of two runs in a row add up. -/
theorem MakesPulses.append {m n : Nat} {xs ys : List Event} (hx : MakesPulses m xs) (hy : MakesPulses n ys) :
    MakesPulses (m + n) (xs ++ ys) := by
  intro d hd
  obtain ⟨hlow, hcount⟩ := hx d hd
  obtain ⟨hlow', hcount'⟩ := hy _ hlow
  refine ⟨by rwa [replay_append], fun es => ?_⟩
  rw [List.append_assoc, hcount, hcount', replay_append, Nat.add_assoc]

/-- Bits of one pulse each make as many pulses as there are bits. -/
theorem MakesPulses.flatMap {f : Bool → List Event} (h : ∀ b, MakesPulses 1 (f b)) (bs : List Bool) :
    MakesPulses bs.length (bs.flatMap f) := by
  induction bs with
  | nil => exact fun d hd => ⟨hd, fun es => (Nat.zero_add _).symm⟩
  | cons b bs ih =>
    rw [List.flatMap_cons, List.length_cons, Nat.add_comm]
    exact (h b).append ih

/-- Writing a level moves no clock. -/
theorem makesPulses_levelEvent (b : Bool) : MakesPulses 0 [levelEvent b] := by
  intro d hd
  cases b <;> simp [levelEvent, clockPulses, pulsesFrom, hd]

theorem makesPulses_pulse : MakesPulses 1 (riseEvents ++ fallEvents) := by
  intro d hd
  simp [riseEvents, fallEvents, clockPulses, pulsesFrom, hd]

theorem makesPulses_sampledBit (b : Bool) : MakesPulses 1 (sampledBit b) := by
  intro d hd
  simp [sampledBit, riseEvents, fallEvents, clockPulses, pulsesFrom, hd]

theorem makesPulses_writtenBit (b : Bool) : MakesPulses 1 (writtenBit b) :=
  (makesPulses_levelEvent b).append makesPulses_pulse

/-- A `WRB` makes eight clock pulses for its bits and one for the acknowledge (R102). -/
theorem makesPulses_wrbEvents (v : Byte) (a : Bool) : MakesPulses 9 (wrbEvents v a) :=
  (MakesPulses.flatMap makesPulses_writtenBit (bitsMSB v)).append
    ((makesPulses_levelEvent true).append (makesPulses_sampledBit a))

/-- An `RDB` makes a clock pulse for each bit and one for the acknowledge (R103). -/
theorem makesPulses_rdbEvents (bs : List Bool) (ack : Bool) : MakesPulses (bs.length + 1) (rdbEvents bs ack) := by
  have pieces := ((makesPulses_levelEvent true).append (MakesPulses.flatMap makesPulses_sampledBit bs)).append
    ((makesPulses_writtenBit (!ack)).append (makesPulses_levelEvent true))
  simpa [rdbEvents, writtenBit, levelEvent] using pieces

/-- Settles O31: from SCL low the events of `WRB` and of `RDB` make nine clock pulses, an `RDB` drawing eight bits. -/
theorem nineClockPulsesPerByte : Obligations.NineClockPulsesPerByte := by
  intro s t hinit hlow
  refine ⟨fun v h => ?_, fun ack h => ?_⟩
  · rw [newEvents_of_exec h hinit]
    exact (makesPulses_wrbEvents v _).clockPulses_eq hlow
  · rw [newEvents_of_exec h hinit, eventsOf, (makesPulses_rdbEvents _ ack).clockPulses_eq hlow, length_drawnBits]

end Sys2Proof.Machine
end

section
/-! SUPPORT and PROOFS. The family 41_byte_transfer.md: the byte transfers and the general call reset as whole next states
(R100, R101, R104), their event lists and counts (R102, R103, R105), and the programs that end without a fault (R181). -/

namespace Sys2Proof.Machine

/-! ### The whole next state of a byte transfer -/

/-- After `INIT` every other command passes its check (R162). -/
theorem checkPasses_of_init {i : Instr} (hi : i ≠ .init) {s : State} (hinit : s.init = true) : checkPasses i s = true :=
  (checkPasses_iff i s).mpr (by simp [hi, hinit])

/-- The whole next state of a command other than `INIT` after `INIT` (R162, R164). -/
theorem exec_eq_of_init (i : Instr) (hi : i ≠ .init) {s : State} (hf : s.fault = none) (hinit : s.init = true) :
    exec i s = .next { s with
      drv := drvAfter s.drv i
      phase := phaseAfter s.phase i
      trace := s.trace ++ eventsOf s.envAnswers s.trace i
      responses := s.responses ++ [responseOf s.envAnswers s.trace i]
      envAnswers := s.envAnswers.drop (samplesOf s.envAnswers s.trace i) } := by
  rw [exec_eq_afterCommand i s hf (checkPasses_of_init hi hinit), afterCommand_eq, ← hinit]

/-- Settles O16: `WRB` adds the events, the response and the one draw that `eventsOf`, `responseOf` and `samplesOf` list. -/
theorem wrbSendsTheByteAndReportsTheAck : Obligations.WrbSendsTheByteAndReportsTheAck := by
  intro v s hf
  refine ⟨?_, fun hinit => exec_raises (.wrb v) s hf hinit⟩
  rintro hinit a rfl
  rw [exec_eq_of_init (.wrb v) nofun hf hinit, samplesOf, List.drop_one]
  rfl

/-- The bits of the byte that eight bits spell are those bits (R44). -/
theorem bitsMSB_byteOfBits {bs : List Bool} (h : bs.length = 8) : bitsMSB (byteOfBits bs) = bs := by
  match bs, h with
  | [b7, b6, b5, b4, b3, b2, b1, b0], _ =>
    revert b7 b6 b5 b4 b3 b2 b1 b0
    decide

/-- Settles O17: the byte received is the one the eight draws spell. -/
theorem rdbReceivesTheDrawnBits : Obligations.RdbReceivesTheDrawnBits := by
  intro ack s hf
  refine ⟨fun hinit b7 b6 b5 b4 b3 b2 b1 b0 drawn => ?_, fun hinit => exec_raises (.rdb ack) s hf hinit⟩
  refine ⟨byteOfBits [b7, b6, b5, b4, b3, b2, b1, b0], bitsMSB_byteOfBits rfl, ?_⟩
  rw [exec_eq_of_init (.rdb ack) nofun hf hinit, eventsOf, responseOf, drawn]
  rfl

/-- Settles O18: the first draw chooses between the two branches of `gcrEvents`. -/
theorem gcrSendsTheGeneralCallReset : Obligations.GcrSendsTheGeneralCallReset := by
  refine ⟨rfl, fun s hf => ⟨fun hinit => ⟨fun missing => ?_, ?_⟩, fun hinit => exec_raises .gcr s hf hinit⟩⟩
  · have first : gcrFirstAck s.envAnswers s.trace = true := missing
    rw [exec_eq_of_init .gcr nofun hf hinit, eventsOf, gcrEvents, responseOf, samplesOf, first, if_pos rfl, if_pos rfl,
      List.drop_one, List.append_assoc]
    rfl
  · rintro acked a rfl
    have first : gcrFirstAck s.envAnswers s.trace = false := acked
    have two : s.envAnswers.drop 2 = s.envAnswers.tail.tail := by simp [← List.drop_one]
    rw [exec_eq_of_init .gcr nofun hf hinit, eventsOf, gcrEvents, responseOf, samplesOf, first,
      if_neg Bool.false_ne_true, if_neg Bool.false_ne_true, two]
    simp only [List.append_assoc]
    rfl

/-- Settles O23: whatever the first draw is, both runs end in the state of O18. (The host's state after `START` is known only
once `issue_wrb` has met the goal, so its hypotheses are given as `by exact`.) -/
theorem gcrEqualsTheHostSequence : Obligations.GcrEqualsTheHostSequence := by
  intro s hf hinit
  obtain ⟨-, gcr⟩ := gcrSendsTheGeneralCallReset
  obtain ⟨missing, acked⟩ := (gcr s hf).1 hinit
  rw [issue_start hf hinit, andThen_next]
  cases first : envDraw s.envAnswers (traceAtAck 0x00 (s.trace ++ startEvents)) with
  | true =>
    rw [issue_wrb 0x00 (by exact hf) (by exact hinit) (by exact first.symm), andThen_next, if_neg (by decide)]
    exact ⟨_, _, rfl, missing first⟩
  | false =>
    rw [issue_wrb 0x00 (by exact hf) (by exact hinit) (by exact first.symm), andThen_next, if_pos (by decide),
      issue_wrb 0x06 (by exact hf) (by exact hinit) rfl]
    exact ⟨_, _, rfl, acked first _ rfl⟩

/-! ### Event lists and their counts -/

/-- An event that each bit's events hold `n` times stands `n` times a bit in those of a run of bits. -/
theorem count_flatMap_of_count {f : Bool → List Event} {e : Event} {n : Nat} (h : ∀ b, (f b).count e = n)
    (bs : List Bool) : (bs.flatMap f).count e = bs.length * n := by
  have each : List.count e ∘ f = fun _ => n := funext h
  simp [List.count_flatMap, each]

/-- A run of sampled bits holds one sample a bit (R103). -/
theorem count_smp_sampledBits (bs : List Bool) :
    (bs.flatMap sampledBit).count (.smp true) + (bs.flatMap sampledBit).count (.smp false) = bs.length := by
  induction bs with
  | nil => rfl
  | cons b bs ih =>
    have one := count_smp_sampledBit b
    simp only [List.flatMap_cons, List.count_append, List.length_cons]
    omega

/-- Every event of a `WRB` but its release of SDA stands in its written bits or in the acknowledge's pulse (R102). -/
theorem count_wrbEvents (e : Event) (he : e ≠ .rel .sda) (v : Byte) (a : Bool) :
    (wrbEvents v a).count e = ((bitsMSB v).flatMap writtenBit).count e + (sampledBit a).count e := by
  rw [wrbEvents, writtenByte, List.count_append, List.count_cons_of_ne he.symm]

/-- The events of an `RDB`, its acknowledge as a written bit (R103). -/
theorem rdbEvents_eq_bits (bs : List Bool) (ack : Bool) :
    rdbEvents bs ack = .rel .sda :: (bs.flatMap sampledBit ++ (writtenBit (!ack) ++ [.rel .sda])) := by
  simp [rdbEvents, writtenBit]

/-- Every event of an `RDB` but its releases of SDA stands in its sampled bits or in the acknowledge (R103). -/
theorem count_rdbEvents (e : Event) (he : e ≠ .rel .sda) (bs : List Bool) (ack : Bool) :
    (rdbEvents bs ack).count e = (bs.flatMap sampledBit).count e + (writtenBit (!ack)).count e := by
  simp [rdbEvents_eq_bits, List.count_cons_of_ne he.symm]

/-- Settles O21: the new events are `wrbEvents`, counted bit by bit. -/
theorem wrbTraceHasNineClocksAndOneSample : Obligations.WrbTraceHasNineClocksAndOneSample := by
  intro v s hf hinit
  refine ⟨_, envDraw s.envAnswers (traceAtAck v s.trace), exec_eq_of_init (.wrb v) nofun hf hinit, ?_⟩
  rw [newEvents_of_trace rfl, eventsOf]
  refine ⟨rfl, length_wrbEvents v _, ?_, ?_, ?_⟩
  · rw [count_wrbEvents (.rel .scl) nofun, count_flatMap_of_count count_relScl_writtenBit, count_relScl_sampledBit]
    rfl
  · rw [count_wrbEvents (.low .scl) nofun, count_flatMap_of_count count_lowScl_writtenBit, count_lowScl_sampledBit]
    rfl
  · rw [count_wrbEvents (.smp true) nofun, count_wrbEvents (.smp false) nofun,
      count_flatMap_of_count (count_smp_writtenBit true), count_flatMap_of_count (count_smp_writtenBit false),
      Nat.mul_zero, Nat.zero_add, Nat.zero_add, count_smp_sampledBit]

/-- Settles O22: the new events are `rdbEvents` of the eight draws, counted bit by bit. -/
theorem rdbTraceHasNineClocksAndEightSamples : Obligations.RdbTraceHasNineClocksAndEightSamples := by
  intro ack s hf hinit
  have eight : (drawnBits 8 s.envAnswers (s.trace ++ [.rel .sda])).length = 8 := length_drawnBits ..
  refine ⟨_, drawnBits 8 s.envAnswers (s.trace ++ [.rel .sda]), exec_eq_of_init (.rdb ack) nofun hf hinit, eight, ?_⟩
  rw [newEvents_of_trace rfl, eventsOf]
  generalize drawnBits 8 s.envAnswers (s.trace ++ [.rel .sda]) = bs at eight ⊢
  refine ⟨?_, length_rdbEvents bs ack eight, ?_, ?_, ?_⟩
  · rw [rdbEvents_eq_bits]
    simp only [List.append_assoc]
    cases ack <;> rfl
  · rw [count_rdbEvents (.rel .scl) nofun, count_flatMap_of_count count_relScl_sampledBit, count_relScl_writtenBit, eight]
  · rw [count_rdbEvents (.low .scl) nofun, count_flatMap_of_count count_lowScl_sampledBit, count_lowScl_writtenBit, eight]
  · rw [count_rdbEvents (.smp true) nofun, count_rdbEvents (.smp false) nofun, count_smp_writtenBit,
      count_smp_writtenBit]
    exact (count_smp_sampledBits bs).trans eight

/-- Settles O32: a command that fails its check ends faulted, and one past it appends `eventCount` events. -/
theorem commandsEndAfterFixedEventCounts : Obligations.CommandsEndAfterFixedEventCounts := by
  intro i s hf
  cases check : checkPasses i s with
  | false => exact ⟨_, exec_raises i s hf check, nofun⟩
  | true =>
    obtain ⟨acked, evs, r, n, count, -, -, he⟩ := exec_completes i s hf check
    refine ⟨_, he, fun _ => ?_⟩
    rw [newEvents_of_trace rfl, count]
    cases i with
    | gcr =>
      cases acked with
      | false => exact .inl rfl
      | true => exact .inr rfl
    | _ => rfl

/-! ### Programs -/

/-- A step on a presented command that passes its check completes the command. -/
theorem step_encoded {i : Instr} {s : State} {ws : List Word} (hcmds : s.cmds = encode i :: ws) (hf : s.fault = none)
    (hc : checkPasses i s = true) : step s = .next (afterCommand i (withCmds ws s)) := by
  rw [stepRunsTheDecodedCommand s (encode i) ws i hcmds (decodeOfEncodeIsTheCommand i)]
  exact exec_eq_afterCommand i (withCmds ws s) hf (checkPasses_congr i rfl ▸ hc)

/-- A run goes on from the state its first step leaves. -/
theorem run_succ {s t : State} (h : step s = .next t) (n : Nat) :
    Host.Core.run core (n + 1) s = Host.Core.run core n t := by
  have hstep : core.step s = .next t := h
  simp only [Host.Core.run, hstep]

/-- `n` steps from `s` take every presented word, give one response each and end initialised and without a fault. -/
def RunsToEnd (n : Nat) (s : State) : Prop :=
  ∃ t : State, Host.Core.run core n s = .next t ∧ t.fault = none ∧ t.cmds = [] ∧
    t.responses.length = s.responses.length + n ∧ t.init = true

/-- A run whose first command passes its check reaches the end if the rest does. -/
theorem RunsToEnd.cons {i : Instr} {s : State} {ws : List Word} {n : Nat} (hcmds : s.cmds = encode i :: ws)
    (hf : s.fault = none) (hc : checkPasses i s = true) (h : RunsToEnd n (afterCommand i (withCmds ws s))) :
    RunsToEnd (n + 1) s := by
  obtain ⟨t, hrun, hfault, hdone, hcount, hinit⟩ := h
  refine ⟨t, (run_succ (step_encoded hcmds hf hc) n).trans hrun, hfault, hdone, ?_, hinit⟩
  rw [hcount, afterCommand_responses, List.length_append, List.length_singleton, Nat.add_assoc, Nat.add_comm 1]

/-- After `INIT`, a program that does not issue it again runs to its end (R181). -/
theorem runsToEnd_without_init {prog : List Instr} {s : State} (hprog : ∀ i ∈ prog, i ≠ .init) (hf : s.fault = none)
    (hinit : s.init = true) (hcmds : s.cmds = prog.map encode) : RunsToEnd prog.length s := by
  induction prog generalizing s with
  | nil => exact ⟨s, rfl, hf, hcmds, rfl, hinit⟩
  | cons i is ih =>
    obtain ⟨hi, his⟩ := List.forall_mem_cons.mp hprog
    exact .cons hcmds hf (checkPasses_of_init hi hinit) (ih his hf rfl rfl)

/-- Settles O42: `INIT` passes its check, and after it no command fails one. -/
theorem programsThatInitOnceNeverFault : Obligations.ProgramsThatInitOnceNeverFault := by
  intro prog s honce hf hinit hcmds
  cases prog with
  | nil => exact ⟨s, rfl, hf, hcmds, rfl, nofun⟩
  | cons i is =>
    obtain ⟨rfl, his⟩ : i = .init ∧ ∀ j ∈ is, j ≠ .init := by simpa [initOnce] using honce
    have check : checkPasses .init s = true := by simp [checkPasses, hinit]
    obtain ⟨t, hrun, hfault, hdone, hcount, ht⟩ : RunsToEnd (is.length + 1) s :=
      .cons hcmds hf check (runsToEnd_without_init his hf rfl rfl)
    exact ⟨t, hrun, hfault, hdone, hcount, fun _ => ht⟩

end Sys2Proof.Machine
end

section
/-! SUPPORT and PROOFS. The family 42_crc8.md: the checksum (R120) is linear in its running value and its bytes, and
injective in each; from these its table (R123) and what `CRC8` and `CHK` answer and catch (R121, R122, R124). -/

namespace Sys2Proof.Machine

/-! ### One iteration -/

/-- One iteration at 8 bits (R120): a shift, and the polynomial without its bit 8 if bit 7 was set. -/
theorem crcStep_eq_ite (c : Byte) : crcStep c = if c.getLsbD 7 then (c <<< 1) ^^^ 0x31 else c <<< 1 := by
  have shifted : (c.setWidth 9 <<< 1).setWidth 8 = c <<< 1 := by
    simp [BitVec.setWidth_shiftLeft_of_le]
  rw [crcStep, crcShift]
  split
  · rw [BitVec.setWidth_xor, shifted]
    rfl
  · exact shifted

/-- The same as one exclusive-or, whatever bit 7 was. -/
theorem crcStep_eq_xor (c : Byte) : crcStep c = (c <<< 1) ^^^ (if c.getLsbD 7 then 0x31 else 0) := by
  rw [crcStep_eq_ite]
  cases c.getLsbD 7 <;> simp

/-- Bit 8 of the intermediate is the bit shifted out, cleared by the polynomial's bit 8 where it was set (R120). -/
theorem crcShift_getLsbD_eight (c : Byte) : (crcShift c).getLsbD 8 = false := by
  have shiftedOut : (c.setWidth 9 <<< 1).getLsbD 8 = c.getLsbD 7 := by simp
  rw [crcShift]
  split
  next set => rw [BitVec.getLsbD_xor, shiftedOut, set]; rfl
  next clear => rw [shiftedOut, Bool.eq_false_of_not_eq_true clear]

/-- An iteration is linear over GF(2). -/
theorem crcStep_xor (c d : Byte) : crcStep (c ^^^ d) = crcStep c ^^^ crcStep d := by
  have polynomial (p q : Bool) :
      (if p ^^ q then 0x31 else 0 : Byte) = (if p then 0x31 else 0) ^^^ (if q then 0x31 else 0) := by
    cases p <;> cases q <;> rfl
  simp only [crcStep_eq_xor, BitVec.getLsbD_xor, polynomial, BitVec.shiftLeft_xor_distrib]
  ac_rfl

/-- Bit 0 of an iteration's value is the bit shifted out, since the polynomial is odd. -/
theorem crcStep_getLsbD_zero (c : Byte) : (crcStep c).getLsbD 0 = c.getLsbD 7 := by
  rw [crcStep_eq_xor]
  cases c.getLsbD 7 <;> simp

/-- Bit 0 of an iteration's value tells whether the polynomial was applied, and with it what was shifted. -/
theorem crcStep_injective : Function.Injective crcStep := by
  intro c d h
  have top : c.getLsbD 7 = d.getLsbD 7 := by rw [← crcStep_getLsbD_zero, h, crcStep_getLsbD_zero]
  have shifted : c <<< 1 = d <<< 1 := by
    rw [crcStep_eq_xor, crcStep_eq_xor, top] at h
    exact (BitVec.xor_left_inj _).mp h
  refine BitVec.eq_of_getLsbD_eq fun i hi => ?_
  obtain rfl | below : i = 7 ∨ i < 7 := by omega
  · exact top
  · have inByte : i + 1 < 8 := Nat.succ_lt_succ below
    have moved (x : Byte) : (x <<< 1).getLsbD (i + 1) = x.getLsbD i := by simp [inByte, hi]
    rw [← moved c, shifted, moved d]

/-! ### A byte and a sequence of bytes -/

theorem crcSteps_xor (n : Nat) (c d : Byte) : crcSteps n (c ^^^ d) = crcSteps n c ^^^ crcSteps n d := by
  induction n generalizing c d with
  | zero => rfl
  | succ n ih => rw [crcSteps, crcStep_xor, ih, crcSteps, crcSteps]

theorem crcSteps_injective (n : Nat) : Function.Injective (crcSteps n) := by
  induction n with
  | zero => exact Function.injective_id
  | succ n ih => exact ih.comp crcStep_injective

/-- A byte's part of the loop is linear in the running value and the byte together. -/
theorem crcByte_xor (c c' d d' : Byte) : crcByte (c ^^^ c') (d ^^^ d') = crcByte c d ^^^ crcByte c' d' := by
  have regroup : c ^^^ c' ^^^ (d ^^^ d') = c ^^^ d ^^^ (c' ^^^ d') := by ac_rfl
  rw [crcByte, regroup, crcSteps_xor, crcByte, crcByte]

/-- From one running value, different bytes give different running values. -/
theorem crcByte_right_inj {c d d' : Byte} : crcByte c d = crcByte c d' ↔ d = d' :=
  (crcSteps_injective 8).eq_iff.trans (BitVec.xor_right_inj c)

/-- By one byte, different running values give different running values. -/
theorem crcByte_left_inj {c c' d : Byte} : crcByte c d = crcByte c' d ↔ c = c' :=
  (crcSteps_injective 8).eq_iff.trans (BitVec.xor_left_inj d)

/-- The checksum of a sequence with one byte more (R120). -/
theorem crc8_append_singleton (ds : List Byte) (d : Byte) : crc8 (ds ++ [d]) = crcByte (crc8 ds) d :=
  List.foldl_append

/-- Settles O46: an iteration by `crcStep_eq_ite`, a further byte by `crc8_append_singleton`. -/
theorem crcIsTheShiftRegister : Obligations.CrcIsTheShiftRegister :=
  ⟨rfl, crc8_append_singleton, fun c => ⟨crcStep_eq_ite c, rfl, crcShift_getLsbD_eight c⟩⟩

/-- Settles O49: with `y` written as `y ^ 0` and `0xFF` as `0xFF ^ (0xFF ^ 0xFF)`, the loop splits into three by `crcByte_xor`. -/
theorem crcIsAffine : Obligations.CrcIsAffine := by
  intro x0 x1 y0 y1
  calc crc8 [x0 ^^^ y0, x1 ^^^ y1]
    _ = crcByte (crcByte (0xFF ^^^ (0xFF ^^^ 0xFF)) (x0 ^^^ (y0 ^^^ 0))) (x1 ^^^ (y1 ^^^ 0)) := by
      simp [crc8]
    _ = crc8 [x0, x1] ^^^ (crc8 [y0, y1] ^^^ crc8 [0x00, 0x00]) := by
      rw [crcByte_xor, crcByte_xor, crcByte_xor, crcByte_xor]; rfl

/-! ### The table -/

/-- A table entry is the eight iterations on its index. -/
theorem crcTable_getD (x : Byte) : crcTable.getD x.toNat 0 = crcSteps 8 x := by
  simp [crcTable, List.getD, List.getElem?_range x.isLt]

/-- Settles O47: byte for byte, the table's entry is what the loop computes. -/
theorem tableDrivenCrcIsTheSameFunction : Obligations.TableDrivenCrcIsTheSameFunction := by
  intro ds
  simp only [crc8ByTable, crcTable_getD]
  rfl

/-! ### The commands -/

theorem checkErrorOf_self (c : Byte) : checkErrorOf c c = 0x00 := if_pos rfl

theorem checkErrorOf_of_ne {c d : Byte} (h : c ≠ d) : checkErrorOf c d = 0x02 := if_neg h

/-- `CHK` after `INIT` only adds its response (R122). -/
theorem exec_chk (b0 b1 c : Byte) {s : State} (hf : s.fault = none) (hinit : s.init = true) :
    exec (.chk b0 b1 c) s =
      .next { s with responses := s.responses ++ [.err (checkErrorOf (crc8 [b0, b1]) c)] } := by
  rw [exec_eq_of_init (.chk b0 b1 c) nofun hf hinit]
  simp [drvAfter, phaseAfter, eventsOf, responseOf, samplesOf]

/-- The checksums of a stuck bus, of a floating bus and of R121's example. -/
theorem crc8_values : crc8 [0x00, 0x00] = 0x81 ∧ crc8 [0xFF, 0xFF] = 0xAC ∧ crc8 [0xBE, 0xEF] = 0x92 := by
  set_option maxRecDepth 2000 in decide

/-- Settles O19: `CRC8` past its check adds no event, takes no draw and keeps lines and phase (R121). -/
theorem crc8ReturnsTheChecksum : Obligations.Crc8ReturnsTheChecksum := by
  obtain ⟨stuck, floating, sample⟩ := crc8_values
  refine ⟨stuck, floating, sample, fun b0 b1 s hf => ⟨rfl, fun hinit => ?_, fun hinit => ?_⟩⟩
  · rw [exec_eq_of_init (.crc8 b0 b1) nofun hf hinit]
    simp [drvAfter, phaseAfter, eventsOf, responseOf, samplesOf]
  · exact exec_raises (.crc8 b0 b1) s hf hinit

/-- Settles O20: `CHK` past its check only adds what `checkErrorOf` says (R122). -/
theorem chkComparesTheChecksum : Obligations.ChkComparesTheChecksum := by
  obtain ⟨stuck, floating, sample⟩ := crc8_values
  rw [Obligations.ChkComparesTheChecksum, stuck, floating, sample]
  refine ⟨rfl, rfl, rfl, rfl, fun b0 b1 => checkErrorOf_self _, fun b0 b1 c s hf => ?_⟩
  exact ⟨rfl, exec_chk b0 b1 c hf, exec_raises (.chk b0 b1 c) s hf⟩

/-! ### Single-bit errors -/

theorem highByte_wordOf (hi lo : Byte) : highByte (wordOf hi lo) = hi := by
  refine BitVec.eq_of_getLsbD_eq fun i hi => ?_
  simp [highByte, wordOf, hi, show 8 + i < 16 by omega]

theorem lowByte_wordOf (hi lo : Byte) : lowByte (wordOf hi lo) = lo := by
  refine BitVec.eq_of_getLsbD_eq fun i hi => ?_
  simp [lowByte, wordOf, hi, show i < 16 by omega]

/-- One bit of a word stands in one of its two bytes. -/
theorem byte_of_single_bit : ∀ p < 16, (highByte (1 <<< p) = 0 ∧ lowByte (1 <<< p) ≠ 0) ∨
    (highByte (1 <<< p) ≠ 0 ∧ lowByte (1 <<< p) = 0) := by
  decide

/-- Inverting any bits of a value changes it. -/
theorem xor_ne_self {w : Nat} {x m : BitVec w} (hm : m ≠ 0) : x ^^^ m ≠ x := fun h =>
  hm ((BitVec.xor_right_inj x).mp (h.trans BitVec.xor_zero.symm))

/-- Inverting one bit of a word changes one of its two bytes and keeps the other. -/
theorem one_byte_differs_of_bit_inverted {b0 b1 c0 c1 : Byte} {p : Nat} (hp : p < 16)
    (h : wordOf c0 c1 = wordOf b0 b1 ^^^ (1 <<< p)) :
    (c0 = b0 ∧ c1 ≠ b1) ∨ (c0 ≠ b0 ∧ c1 = b1) := by
  have high : c0 = b0 ^^^ highByte (1 <<< p) := by
    rw [← highByte_wordOf c0 c1, h, highByte, BitVec.extractLsb'_xor, ← highByte, highByte_wordOf, ← highByte]
  have low : c1 = b1 ^^^ lowByte (1 <<< p) := by
    rw [← lowByte_wordOf c0 c1, h, lowByte, BitVec.extractLsb'_xor, ← lowByte, lowByte_wordOf, ← lowByte]
  obtain ⟨h0, h1⟩ | ⟨h0, h1⟩ := byte_of_single_bit p hp
  · exact .inl ⟨by rw [high, h0]; exact BitVec.xor_zero, low ▸ xor_ne_self h1⟩
  · exact .inr ⟨high ▸ xor_ne_self h0, by rw [low, h1]; exact BitVec.xor_zero⟩

/-- A change of one byte of the word, the other kept, changes the checksum (R124). -/
theorem crc8_ne_of_one_byte_differs {b0 b1 c0 c1 : Byte} (h : (c0 = b0 ∧ c1 ≠ b1) ∨ (c0 ≠ b0 ∧ c1 = b1)) :
    crc8 [c0, c1] ≠ crc8 [b0, b1] := by
  obtain ⟨rfl, h1⟩ | ⟨h0, rfl⟩ := h
  · exact fun same => h1 (crcByte_right_inj.mp same)
  · exact fun same => h0 (crcByte_right_inj.mp (crcByte_left_inj.mp same))

/-- Settles O48: a single-bit error of the payload is an error of one byte, and one of the checksum makes it another. -/
theorem chkCatchesEverySingleBitError : Obligations.ChkCatchesEverySingleBitError := by
  intro b0 b1 s hf hinit
  refine ⟨?_, fun p hp c0 c1 h => ?_, fun q hq => ?_⟩
  · rw [exec_chk b0 b1 _ hf hinit, checkErrorOf_self]
  · have differs : crc8 [c0, c1] ≠ crc8 [b0, b1] :=
      crc8_ne_of_one_byte_differs (one_byte_differs_of_bit_inverted hp h)
    exact ⟨differs, by rw [exec_chk c0 c1 _ hf hinit, checkErrorOf_of_ne differs]⟩
  · have differs : crc8 [b0, b1] ≠ crc8 [b0, b1] ^^^ (1 <<< q) := by
      have bit : (1 <<< q : Byte) ≠ 0 := by decide +revert
      exact (xor_ne_self bit).symm
    rw [exec_chk b0 b1 _ hf hinit, checkErrorOf_of_ne differs]

end Sys2Proof.Machine
end

section
/-! SUPPORT and PROOFS. The family 43_access_sequences.md: the access sequences as whole next states (R140 to R144), what the
grammar of R145 expands to, and how an operation ends. -/

namespace Sys2Proof.Machine

/-! ### The access sequences as whole next states

The state a later command starts from is known only once its lemma has met the goal, so the hypotheses about it are given
as `by exact`. -/

/-- `START` and then a byte, as `BWA` and `BRA` issue them (R140, R141). -/
theorem start_then_wrb_eq (v : Byte) {s : State} {a : Bool} (hf : s.fault = none) (hinit : s.init = true)
    (ha : a = envDraw s.envAnswers (traceAtAck v (s.trace ++ startEvents))) :
    (andThen (issue .start s) fun _ t => issue (.wrb v) t) = .next (busErrorOf a, { s with
      drv := ⟨.rel, .low⟩
      phase := .active
      trace := s.trace ++ startEvents ++ wrbEvents v a
      envAnswers := s.envAnswers.tail
      responses := s.responses ++ [.none, .err (busErrorOf a)] }) := by
  rw [issue_start hf hinit, andThen_next, issue_wrb v (by exact hf) (by exact hinit) (by exact ha)]
  simp only [List.append_assoc, List.singleton_append]

/-- Settles O52: both are `START` and then the address byte, which differ in the direction bit alone. -/
theorem beginAccessSendsTheAddressByte : Obligations.BeginAccessSendsTheAddressByte := fun addr _ hf hinit =>
  ⟨fun _ ha => start_then_wrb_eq (addrByte addr false) hf hinit ha,
    fun _ ha => start_then_wrb_eq (addrByte addr true) hf hinit ha⟩

/-- `ENDA` is `STOP`, and the host keeps nothing of its answer (R142). -/
theorem enda_eq {s : State} (hf : s.fault = none) (hinit : s.init = true) :
    enda s = .next ((), { s with
      drv := ⟨.rel, .rel⟩
      phase := .idle
      trace := s.trace ++ stopEvents
      responses := s.responses ++ [.none] }) := by
  rw [enda, issue_stop hf hinit, andThen_next]

/-- Settles O53: `enda_eq` gives the state in which O15 has `STOP` end. -/
theorem endAccessIsStop : Obligations.EndAccessIsStop := by
  intro s hf hinit
  obtain ⟨-, stop⟩ := stopMakesAStopCondition
  exact ⟨_, (stop s hf).1 hinit, enda_eq hf hinit, by rw [execPseudo, enda_eq hf hinit, andThen_next]; rfl⟩

/-- The merged error of two acknowledges is AcknowledgeMissing where either is missing (R30). -/
theorem mergeErr_busErrorOf (a b : Bool) : mergeErr (busErrorOf a) (busErrorOf b) = busErrorOf (a || b) := by
  cases a <;> cases b <;> rfl

/-- Settles O54: the second byte is issued in the state the first leaves, whatever it answers, and the errors merge. -/
theorem sendCommandAlwaysSendsBothBytes : Obligations.SendCommandAlwaysSendsBothBytes := by
  intro k s hf hinit a1 a2 h1 h2
  rw [scmd, issue_wrb (highByte k) hf hinit h1, andThen_next,
    issue_wrb (lowByte k) (by exact hf) (by exact hinit) (by exact h2), andThen_next, mergeErr_busErrorOf]
  simp only [List.append_assoc]
  rfl

/-- `RDWC` reads three bytes and compares the third with the checksum of the others; its value is their word where the
checksums agree (R144). -/
theorem rdwc_eq (fa : Bool) {s : State} {x0 x1 x2 : List Bool} {e : Byte} (hf : s.fault = none) (hinit : s.init = true)
    (h0 : x0 = drawnBits 8 s.envAnswers (s.trace ++ [.rel .sda]))
    (h1 : x1 = drawnBits 8 (s.envAnswers.drop 8) (s.trace ++ rdbEvents x0 true ++ [.rel .sda]))
    (h2 : x2 = drawnBits 8 (s.envAnswers.drop 16) (s.trace ++ rdbEvents x0 true ++ rdbEvents x1 true ++ [.rel .sda]))
    (he : e = checkErrorOf (crc8 [byteOfBits x0, byteOfBits x1]) (byteOfBits x2)) :
    rdwc fa s = .next
      ((if e = errOk then wordOf (byteOfBits x0) (byteOfBits x1)
        else Config.mismatchWord (s.trace ++ rdbEvents x0 true ++ rdbEvents x1 true ++ rdbEvents x2 fa), e),
      { s with
        drv := ⟨.rel, .low⟩
        trace := s.trace ++ rdbEvents x0 true ++ rdbEvents x1 true ++ rdbEvents x2 fa
        envAnswers := s.envAnswers.drop 24
        responses := s.responses ++ [.byte (byteOfBits x0), .byte (byteOfBits x1), .byte (byteOfBits x2), .err e] }) := by
  rw [rdwc, issue_rdb true hf hinit h0, andThen_next, issue_rdb true (by exact hf) (by exact hinit) (by exact h1),
    andThen_next, issue_rdb fa (by exact hf) (by exact hinit) (by simpa using h2), andThen_next,
    issue_chk _ _ _ (by exact hf) (by exact hinit), andThen_next, ← he]
  simp only [List.drop_drop, Nat.reduceAdd, List.append_assoc, List.cons_append, List.nil_append]

/-- Settles O55: `rdwc_eq`, with `CHK`'s error on each side of its comparison (R122). -/
theorem readWordChecksItsBytes : Obligations.ReadWordChecksItsBytes := by
  refine ⟨fun fa s hf hinit => ?_, fun _ _ _ _ => rfl⟩
  refine ⟨_, _, _, _, _, _, _, _, _, rfl, rfl, rfl, rfl, rfl, rfl, rdwc_eq fa hf hinit rfl rfl rfl rfl, rfl,
    fun agree => ?_, checkErrorOf_of_ne⟩
  rw [agree, checkErrorOf_self]
  exact ⟨rfl, rfl⟩

/-! ### The grammar of R145 and the host's rules -/

/-- What the host's rules ask of the commands that follow: from phase `p`, with no general call open, `acked` saying
whether the last byte read was acknowledged (R183, R184, R188), up to the end of the transaction. -/
structure KeepsHostRules (p : Phase) (acked : Bool) (is : List Instr) : Prop where
  inside : bytesInside p is = true
  noCallOpen : closesGeneralCall false is = true
  endsIdle : is.foldl phaseAfter p = .idle
  lastUnacked : lastReadUnacked acked is = true

/-- `ENDA` closes the transaction, after a last byte that was not acknowledged. -/
theorem keepsHostRules_stop (p : Phase) : KeepsHostRules p false [.stop] where
  inside := by simp [bytesInside, mnemonicOf]
  noCallOpen := rfl
  endsIdle := rfl
  lastUnacked := rfl

/-- `BWA` and `BRA` open a transaction, after a last byte that was not acknowledged. -/
theorem KeepsHostRules.start_wrb {is : List Instr} (h : KeepsHostRules .active false is) (p : Phase) (v : Byte) :
    KeepsHostRules p false (.start :: .wrb v :: is) where
  inside := by simp [bytesInside, mnemonicOf, phaseAfter, h.inside]
  noCallOpen := by simp [closesGeneralCall, h.noCallOpen]
  endsIdle := h.endsIdle
  lastUnacked := by simp [lastReadUnacked, h.lastUnacked]

/-- `SCMD` sends its bytes inside the transaction. -/
theorem KeepsHostRules.wrb_wrb {is : List Instr} {acked : Bool} (h : KeepsHostRules .active acked is) (v1 v2 : Byte) :
    KeepsHostRules .active acked (.wrb v1 :: .wrb v2 :: is) where
  inside := by simp [bytesInside, phaseAfter, h.inside]
  noCallOpen := h.noCallOpen
  endsIdle := h.endsIdle
  lastUnacked := h.lastUnacked

/-- `RDWC` reads its bytes inside the transaction, and its operand says whether the last is acknowledged. -/
theorem KeepsHostRules.rdwc {is : List Instr} {fa : Bool} (h : KeepsHostRules .active fa is) (acked : Bool)
    (b0 b1 c : Byte) :
    KeepsHostRules .active acked (.rdb true :: .rdb true :: .rdb fa :: .chk b0 b1 c :: is) where
  inside := by simp [bytesInside, phaseAfter, h.inside]
  noCallOpen := h.noCallOpen
  endsIdle := h.endsIdle
  lastUnacked := h.lastUnacked

/-- The read part of an operation keeps the rules inside its transaction, its last `RDWC` with `NACK` (R184). -/
theorem keepsHostRules_reads (addr : BitVec 7) (b0 b1 c : Byte) {ps : List Pseudo} (h : isReads ps = true) (acked : Bool) :
    KeepsHostRules .active acked (ps.flatMap (expansion addr b0 b1 c)) := by
  induction ps using isReads.induct generalizing acked with
  | case1 fa t =>
    obtain rfl : fa = false := by simpa [isReads] using h
    exact (keepsHostRules_stop .active).rdwc acked b0 b1 c
  | case2 fa t ps more ih =>
    exact (ih (by simpa [isReads] using h) fa).rdwc acked b0 b1 c
  | case3 ps noEnd noRead => simp [isReads] at h

/-- Settles O44: each pseudo-instruction of an operation keeps the rules if those after it do, from `ENDA` back to `BWA`. -/
theorem operationsKeepTheHostRules : Obligations.OperationsKeepTheHostRules := by
  intro addr b0 b1 c ps h
  have keeps : KeepsHostRules .idle false (ps.flatMap (expansion addr b0 b1 c)) := by
    unfold isOperation at h
    split at h
    next k => exact ((keepsHostRules_stop .active).wrb_wrb _ _).start_wrb .idle _
    next k rest =>
      exact (((keepsHostRules_reads addr b0 b1 c h false).start_wrb .active _).wrb_wrb _ _).start_wrb .idle _
    next => cases h
  exact ⟨keeps.inside, keeps.noCallOpen, keeps.endsIdle, keeps.lastUnacked⟩

/-! ### An operation ends -/

/-- A later state of an initialised block without a fault: still so, no presented word taken, the trace only longer. -/
structure GoesOn (s t : State) : Prop where
  fault : t.fault = none
  init : t.init = true
  cmds : t.cmds = s.cmds
  trace : s.trace <+: t.trace

theorem GoesOn.trans {s t u : State} (h : GoesOn s t) (h' : GoesOn t u) : GoesOn s u :=
  ⟨h'.fault, h'.init, h'.cmds.trans h.cmds, h.trace.trans h'.trace⟩

/-- From an initialised state without a fault, a host procedure ends with a value in a state that goes on from it. -/
def Completes {α : Type} (run : State → HostRun α) : Prop :=
  ∀ s : State, s.fault = none → s.init = true → ∃ (x : α) (t : State), run s = .next (x, t) ∧ GoesOn s t

/-- Returning a value runs no command. -/
theorem completes_return {α : Type} (f : State → α) : Completes fun s => .next (f s, s) :=
  fun s hf hinit => ⟨f s, s, rfl, hf, hinit, rfl, List.prefix_rfl⟩

/-- A procedure goes on from where the one before it ended. -/
theorem Completes.andThen {α β : Type} {run : State → HostRun α} {k : α → State → HostRun β} (h : Completes run)
    (hk : ∀ x, Completes (k x)) : Completes fun s => andThen (run s) k := by
  intro s hf hinit
  obtain ⟨x, t, hrun, ht⟩ := h s hf hinit
  obtain ⟨y, u, hk, hu⟩ := hk x t ht.fault ht.init
  exact ⟨y, u, (congrArg (Machine.andThen · k) hrun).trans hk, ht.trans hu⟩

/-- A choice between two procedures completes if both do. -/
theorem Completes.ite {α : Type} {p : Prop} [Decidable p] {run run' : State → HostRun α} (h : Completes run)
    (h' : Completes run') : Completes fun s => if p then run s else run' s := by
  split <;> assumption

/-- The host receives the response of every command but a second `INIT` (R162). -/
theorem completes_issue (i : Instr) (hi : i ≠ .init) : Completes (issue i) := fun s hf hinit =>
  ⟨_, afterCommand i s,
    issue_of_exec (exec_eq_afterCommand i s hf (checkPasses_of_init hi hinit)) hf rfl, hf, rfl, rfl,
    List.prefix_append _ _⟩

theorem completes_bwa (addr : BitVec 7) : Completes (bwa addr) :=
  (completes_issue .start nofun).andThen fun _ => completes_issue (.wrb _) nofun

theorem completes_bra (addr : BitVec 7) : Completes (bra addr) :=
  (completes_issue .start nofun).andThen fun _ => completes_issue (.wrb _) nofun

theorem completes_scmd (k : BitVec 16) : Completes (scmd k) :=
  (completes_issue (.wrb _) nofun).andThen fun _ => (completes_issue (.wrb _) nofun).andThen fun _ => completes_return _

theorem completes_rdwc (fa : Bool) : Completes (rdwc fa) :=
  (completes_issue (.rdb true) nofun).andThen fun b0 => (completes_issue (.rdb true) nofun).andThen fun b1 =>
    (completes_issue (.rdb fa) nofun).andThen fun c => (completes_issue (.chk b0 b1 c) nofun).andThen fun _ =>
      completes_return _

theorem completes_readWords (p : ReadPolicy) (n : Nat) (e : Byte) : Completes (readWords p n e) := by
  induction n generalizing e with
  | zero => exact (completes_rdwc false).andThen fun _ => completes_return _
  | succ n ih =>
    exact (completes_rdwc true).andThen fun _ => .ite ((ih _).andThen fun _ => completes_return _) (completes_return _)

/-- An operation up to its `ENDA` completes, whichever steps it skips. -/
theorem completes_operationBody (p : ReadPolicy) (addr : BitVec 7) (k : BitVec 16) (words : Nat) :
    Completes (operationBody p addr k words) := by
  refine (completes_bwa addr).andThen fun e0 => .ite ((completes_scmd k).andThen fun e1 => ?_) (completes_return _)
  cases words with
  | zero => exact completes_return _
  | succ n =>
    exact .ite ((completes_bra addr).andThen fun e2 => .ite (completes_readWords p n _) (completes_return _))
      (completes_return _)

/-- An operation whose body has ended runs `ENDA` and returns what the body did. -/
theorem operation_of_body {p : ReadPolicy} {addr : BitVec 7} {k : BitVec 16} {words : Nat} {s t : State}
    {r : List (BitVec 16) × Byte} (h : operationBody p addr k words s = .next (r, t)) (hf : t.fault = none)
    (hinit : t.init = true) :
    operation p addr k words s = .next (r, { t with
      drv := ⟨.rel, .rel⟩
      phase := .idle
      trace := t.trace ++ stopEvents
      responses := t.responses ++ [.none] }) := by
  rw [operation, h, andThen_next, enda_eq hf hinit, andThen_next]

/-- Settles O56: the part before `ENDA` completes, and `ENDA` closes the bus from any state. -/
theorem operationsAlwaysCloseTheBus : Obligations.OperationsAlwaysCloseTheBus := by
  intro p addr k words s hf hinit
  obtain ⟨r, t, hbody, ht⟩ := completes_operationBody p addr k words s hf hinit
  obtain ⟨es, hes⟩ := ht.trace
  exact ⟨r, _, es, operation_of_body hbody ht.fault ht.init, by rw [hes]; rfl, rfl, rfl, ht.fault, ht.init, ht.cmds⟩

/-- An operation's body ends after a `BWA` that failed (R145). -/
theorem operationBody_of_bwa_failed {p : ReadPolicy} {addr : BitVec 7} {k : BitVec 16} {words : Nat} {s t : State}
    {e : Byte} (h : bwa addr s = .next (e, t)) (he : isOk e = false) :
    operationBody p addr k words s = .next (([], e), t) := by
  rw [operationBody, h, andThen_next, he, if_neg Bool.false_ne_true]

/-- Settles O57: `BWA` returns AcknowledgeMissing, so the body ends after it and `ENDA` follows. -/
theorem operationsSkipAfterAMissingAck : Obligations.OperationsSkipAfterAMissingAck := by
  intro p addr k words s hf hinit missing
  have body := operationBody_of_bwa_failed (p := p) (k := k) (words := words)
    (start_then_wrb_eq (addrByte addr false) hf hinit missing.symm) rfl
  rw [operation_of_body body hf hinit, List.append_assoc s.responses]
  rfl

end Sys2Proof.Machine
end

section
/-! SUPPORT and PROOFS. The family 60_exceptions.md: the step of a sound block on no word and on an illegal one, the three
model faults, and a block that has recorded one (R162 to R164, R171). -/

namespace Sys2Proof.Machine

/-! ### A sound block -/

/-- The check for a recorded fault lets a sound block go on (R163). -/
theorem whenSound_of_fault_none {s : State} (hf : s.fault = none) (k : Result) : whenSound s k = k := by
  rw [whenSound, hf]

/-- Before `INIT`, every other command fails its check (R162). -/
theorem checkPasses_before_init {i : Instr} (hi : i ≠ .init) {s : State} (hinit : s.init = false) :
    checkPasses i s = false :=
  Bool.eq_false_iff.mpr fun hc => hi (((checkPasses_iff i s).mp hc).mpr hinit)

/-- A failed check other than `INIT`'s names its command (R162). -/
theorem checkFault_eq_notInitialized {i : Instr} (hi : i ≠ .init) : checkFault i = .notInitialized (mnemonicOf i) := by
  cases i with
  | init => exact absurd rfl hi
  | _ => rfl

/-- With no word presented, a step is the host's waiting (R171). -/
theorem step_of_cmds_nil {s : State} (hcmds : s.cmds = []) : step s = idleStep s := by
  simp only [step, takeCommand, hcmds]

/-- Settles O3: the step is the host's waiting, which a sound block does not hinder. -/
theorem stepWithoutCommandWaits : Obligations.StepWithoutCommandWaits := by
  intro s hf hcmds
  rw [step_of_cmds_nil hcmds]
  exact whenSound_of_fault_none hf (.next s)

/-- A step on a word that does not decode takes the word and raises the fault (R65, R162). -/
theorem step_of_decode_none {s : State} {w : Word} {rest : List Word} (hcmds : s.cmds = w :: rest)
    (hd : decode w = none) : step s = raiseIllegal w (withCmds rest s) := by
  simp only [step, takeCommand, hcmds, hd]

/-- Settles O24: a word that does not decode reaches no check of `init`, and a command that fails its check records
`checkFault`. -/
theorem modelFaultsRecordOnlyTheFault : Obligations.ModelFaultsRecordOnlyTheFault := by
  refine ⟨fun s w rest hf hcmds hd => ?_, fun s i hf hinit hi => ?_, fun s hf hinit => ?_⟩
  · rw [step_of_decode_none hcmds hd]
    exact whenSound_of_fault_none (s := withCmds rest s) hf _
  · rw [exec_raises i s hf (checkPasses_before_init hi hinit), checkFault_eq_notInitialized hi, raise]
  · exact exec_raises .init s hf (by simp [checkPasses, hinit])

/-- Settles O26: of what a step can answer, only recording a fault leaves one, and only a completed command adds an event. -/
theorem faultsComeBeforeTheFirstEvent : Obligations.FaultsComeBeforeTheFirstEvent := by
  intro s t hstep
  obtain ⟨hf, rfl | ⟨ws, f, -, rfl⟩ | ⟨ws, i, -, rfl⟩⟩ := step_next_cases hstep
  case inl => exact ⟨fun faulted => absurd hf faulted, fun traced => absurd rfl traced⟩
  case inr.inl => exact ⟨fun _ => ⟨rfl, rfl, rfl, rfl, rfl, rfl⟩, fun traced => absurd rfl traced⟩
  case inr.inr => exact ⟨fun faulted => absurd hf faulted, fun _ => ⟨hf, _, rfl⟩⟩

/-! ### A faulted block -/

/-- The check for a recorded fault answers it (R163). -/
theorem whenSound_of_fault_some {s : State} {f : Fault} (hf : s.fault = some f) (k : Result) :
    whenSound s k = .fault f := by
  rw [whenSound, hf]

/-- A faulted block takes no step, whatever the host presents (R163). -/
theorem step_faulted {s : State} {f : Fault} (hf : s.fault = some f) : step s = .fault f := by
  cases hcmds : s.cmds with
  | nil =>
    rw [step_of_cmds_nil hcmds]
    exact whenSound_of_fault_some hf _
  | cons w rest =>
    cases hd : decode w with
    | none =>
      rw [step_of_decode_none hcmds hd]
      exact whenSound_of_fault_some (s := withCmds rest s) hf _
    | some i =>
      rw [stepRunsTheDecodedCommand s w rest i hcmds hd]
      exact exec_faulted i (withCmds rest s) f hf

/-- A run ends at its first step if that faults. -/
theorem run_succ_of_step_fault {s : State} {f : Fault} (h : step s = .fault f) (n : Nat) :
    Host.Core.run core (n + 1) s = .fault f := by
  have hstep : core.step s = .fault f := h
  simp only [Host.Core.run, hstep]

/-- Settles O25: every command and every step answers the fault, and the run of no step stays in the faulted state. -/
theorem faultIsPermanent : Obligations.FaultIsPermanent := by
  intro s f hf
  have runs := run_succ_of_step_fault (step_faulted hf)
  refine ⟨step_faulted hf, fun i => exec_faulted i s f hf, runs, ?_⟩
  rintro n ⟨t, hrun, ht⟩
  cases n with
  | zero =>
    obtain rfl : s = t := Host.Outcome.next.inj hrun
    exact Option.some_ne_none f (hf.symm.trans ht)
  | succ n => cases (runs n).symm.trans hrun

end Sys2Proof.Machine
end

section
/-! SUPPORT and PROOFS. The family 70_reset_and_hazards.md: the waiting times and the calls of `Pulse` (R192), the order of
edges, delays and samples in a byte transfer (R182), one thread per transaction (R185), and how a read ends (R184). -/

namespace Sys2Proof.Machine

/-! ### The events of a general call reset -/

/-- `GCR` is `START` and one byte in 61 events, or `START` and two bytes in 116 (R104, R105). -/
theorem gcrEvents_cases (as : List Bool) (tr : List Event) :
    (gcrEvents as tr = startEvents ++ wrbEvents generalCallAddress true ∧ (gcrEvents as tr).length = 61) ∨
    ∃ a, gcrEvents as tr =
        startEvents ++ (wrbEvents generalCallAddress false ++ wrbEvents generalCallReset a) ∧
      (gcrEvents as tr).length = 116 := by
  unfold gcrEvents
  split
  · exact .inl ⟨rfl, rfl⟩
  · exact .inr ⟨_, rfl, by simp [length_wrbEvents, startEvents]⟩

/-! ### Calls of `Pulse` -/

/-- A `WRB` calls `Pulse` nine times (R192). -/
theorem pulseCalls_wrbEvents_eq_nine (before : Option Event) (v : Byte) (a : Bool) :
    pulseCalls before (wrbEvents v a) = 9 := by
  simpa using pulseCalls_wrbEvents before v a []

/-- A `GCR` calls `Pulse` nine times a byte (R104, R192). -/
theorem pulseCalls_gcrEvents (as : List Bool) (tr : List Event) :
    pulseCalls none (gcrEvents as tr) = if (gcrEvents as tr).length = 61 then 9 else 18 := by
  obtain ⟨events, count⟩ | ⟨a, events, count⟩ := gcrEvents_cases as tr
  · rw [count, if_pos rfl, events, pulseCalls_startEvents, pulseCalls_wrbEvents_eq_nine]
  · rw [count, if_neg (by decide), events, pulseCalls_startEvents, pulseCalls_wrbEvents, pulseCalls_wrbEvents_eq_nine]

/-- Settles O59: a command that fails its check ends faulted, and one past it adds `eventsOf`, whose calls of `Pulse` are
those of its bytes. -/
theorem pulseCallsOfEachCommand : Obligations.PulseCallsOfEachCommand := by
  intro i s hf
  cases check : checkPasses i s with
  | false => exact ⟨_, exec_raises i s hf check, nofun⟩
  | true =>
    refine ⟨_, exec_eq_afterCommand i s hf check, fun _ => ?_⟩
    rw [newEvents_of_trace (afterCommand_trace i s)]
    cases i with
    | wrb v => exact pulseCalls_wrbEvents_eq_nine none v _
    | rdb ack => exact (pulseCalls_rdbEvents _ ack).trans (congrArg (· + 1) (length_drawnBits ..))
    | gcr => exact pulseCalls_gcrEvents _ _
    | _ => rfl

/-! ### Waiting times -/

/-- The waiting time of one call of `Pulse` (R84, R192). -/
def pulseTime : Nat := Config.duration .dataSetup + Config.duration .clockHigh + Config.duration .dataHold

/-- The waiting times of two runs in a row add up. -/
theorem waitingTime_append (xs ys : List Event) : waitingTime (xs ++ ys) = waitingTime xs + waitingTime ys := by
  induction xs with
  | nil => simp [waitingTime]
  | cons e xs ih => cases e <;> simp [waitingTime, ih, Nat.add_assoc]

/-- Bits of one waiting time each wait it once a bit. -/
theorem waitingTime_flatMap {f : Bool → List Event} {n : Nat} (h : ∀ b, waitingTime (f b) = n) (bs : List Bool) :
    waitingTime (bs.flatMap f) = bs.length * n := by
  induction bs with
  | nil => simp [waitingTime]
  | cons b bs ih => rw [List.flatMap_cons, waitingTime_append, h, ih, List.length_cons, Nat.succ_mul, Nat.add_comm]

/-- Writing a level waits for nothing. -/
theorem waitingTime_levelEvent (b : Bool) : waitingTime [levelEvent b] = 0 := by cases b <;> rfl

theorem waitingTime_pulse : waitingTime (riseEvents ++ fallEvents) = pulseTime := by
  simp [riseEvents, fallEvents, waitingTime, pulseTime, Nat.add_assoc]

theorem waitingTime_writtenBit (b : Bool) : waitingTime (writtenBit b) = pulseTime := by
  have parts := waitingTime_append [levelEvent b] (riseEvents ++ fallEvents)
  rwa [waitingTime_levelEvent, waitingTime_pulse, Nat.zero_add] at parts

/-- The sample itself waits for nothing. -/
theorem waitingTime_sampledBit (b : Bool) : waitingTime (sampledBit b) = pulseTime := waitingTime_pulse

theorem waitingTime_startEvents :
    waitingTime startEvents = Config.duration .startSetup + Config.duration .startHold := by
  simp [startEvents, waitingTime]

theorem waitingTime_stopEvents : waitingTime stopEvents = Config.duration .stopSetup := by
  simp [stopEvents, waitingTime]

/-- A `WRB` waits for nine pulses (R192). -/
theorem waitingTime_wrbEvents (v : Byte) (a : Bool) : waitingTime (wrbEvents v a) = 9 * pulseTime := by
  rw [wrbEvents, writtenByte, waitingTime_append, waitingTime_flatMap waitingTime_writtenBit, waitingTime,
    waitingTime_sampledBit]
  exact (Nat.succ_mul 8 pulseTime).symm

/-- An `RDB` waits for a pulse a bit and one for the acknowledge (R192). -/
theorem waitingTime_rdbEvents (bs : List Bool) (ack : Bool) :
    waitingTime (rdbEvents bs ack) = (bs.length + 1) * pulseTime := by
  rw [rdbEvents_eq_bits, waitingTime, waitingTime_append, waitingTime_append, waitingTime_flatMap waitingTime_sampledBit,
    waitingTime_writtenBit]
  exact (Nat.succ_mul bs.length pulseTime).symm

/-- A `GCR` waits for its start condition and for nine pulses a byte (R192). -/
theorem waitingTime_gcrEvents (as : List Bool) (tr : List Event) :
    waitingTime (gcrEvents as tr) =
      waitingTime startEvents + (if (gcrEvents as tr).length = 61 then 9 else 18) * pulseTime := by
  obtain ⟨events, count⟩ | ⟨a, events, count⟩ := gcrEvents_cases as tr
  · rw [count, if_pos rfl, events, waitingTime_append, waitingTime_wrbEvents]
  · rw [count, if_neg (by decide), events, waitingTime_append, waitingTime_append, waitingTime_wrbEvents,
      waitingTime_wrbEvents, ← Nat.add_mul]

/-- Settles O33: after `INIT` the five commands pass their checks, and their waiting times are those of their events. -/
theorem minimumWaitingTimes : Obligations.MinimumWaitingTimes := by
  intro s t hinit
  refine ⟨fun h => ?start, fun h => ?stop, fun v h => ?wrb, fun ack h => ?rdb, fun h => ?gcr⟩ <;>
    rw [newEvents_of_exec h hinit, eventsOf]
  case start => exact waitingTime_startEvents
  case stop => exact waitingTime_stopEvents
  case wrb => exact waitingTime_wrbEvents v _
  case rdb => rw [waitingTime_rdbEvents, length_drawnBits]; rfl
  case gcr => rw [waitingTime_gcrEvents, waitingTime_startEvents]; rfl

/-! ### The order of edges, delays and samples -/

/-- Each clock release directly after a set-up wait and each clock pull-low directly before a hold wait (R182), whatever
event comes before the run. -/
structure KeepsClockOrder (xs : List Event) : Prop where
  setup : ∀ before, setupBeforeRelease before xs = true
  hold : holdAfterLow xs = true

theorem keepsClockOrder_nil : KeepsClockOrder [] := ⟨fun _ => rfl, rfl⟩

/-- Two runs that keep the set-up order keep it in a row, since the second keeps it after any event. -/
theorem setupBeforeRelease_append {xs ys : List Event} {before : Option Event}
    (hx : setupBeforeRelease before xs = true) (hy : ∀ b, setupBeforeRelease b ys = true) :
    setupBeforeRelease before (xs ++ ys) = true := by
  induction xs generalizing before with
  | nil => exact hy before
  | cons e xs ih =>
    rw [setupBeforeRelease, Bool.and_eq_true] at hx
    obtain ⟨first, rest⟩ := hx
    rw [List.cons_append, setupBeforeRelease, first, ih rest, Bool.and_self]

/-- Two runs that keep the hold order keep it in a row: the hold wait of a pull-low stands in the same run. -/
theorem holdAfterLow_append {xs ys : List Event} (hx : holdAfterLow xs = true) (hy : holdAfterLow ys = true) :
    holdAfterLow (xs ++ ys) = true := by
  induction xs with
  | nil => exact hy
  | cons e xs ih =>
    rw [holdAfterLow, Bool.and_eq_true, decide_eq_true_eq] at hx
    obtain ⟨first, rest⟩ := hx
    rw [List.cons_append, holdAfterLow, ih rest, Bool.and_true, decide_eq_true_eq]
    intro he
    rw [List.head?_append, first he, Option.some_or]

theorem KeepsClockOrder.append {xs ys : List Event} (hx : KeepsClockOrder xs) (hy : KeepsClockOrder ys) :
    KeepsClockOrder (xs ++ ys) :=
  ⟨fun before => setupBeforeRelease_append (hx.setup before) hy.setup, holdAfterLow_append hx.hold hy.hold⟩

/-- Bits that each keep the order keep it in a row. -/
theorem KeepsClockOrder.flatMap {f : Bool → List Event} (h : ∀ b, KeepsClockOrder (f b)) (bs : List Bool) :
    KeepsClockOrder (bs.flatMap f) := by
  induction bs with
  | nil => exact keepsClockOrder_nil
  | cons b bs ih => exact (h b).append ih

/-- Writing a level moves no clock. -/
theorem keepsClockOrder_levelEvent (b : Bool) : KeepsClockOrder [levelEvent b] := by
  cases b <;> exact ⟨fun _ => by simp [levelEvent, setupBeforeRelease], rfl⟩

theorem keepsClockOrder_pulse : KeepsClockOrder (riseEvents ++ fallEvents) :=
  ⟨fun _ => by simp [riseEvents, fallEvents, setupBeforeRelease], rfl⟩

theorem keepsClockOrder_sampledBit (b : Bool) : KeepsClockOrder (sampledBit b) :=
  ⟨fun _ => by simp [sampledBit, riseEvents, fallEvents, setupBeforeRelease],
    by simp [sampledBit, riseEvents, fallEvents, holdAfterLow]⟩

theorem keepsClockOrder_writtenBit (b : Bool) : KeepsClockOrder (writtenBit b) :=
  (keepsClockOrder_levelEvent b).append keepsClockOrder_pulse

theorem keepsClockOrder_wrbEvents (v : Byte) (a : Bool) : KeepsClockOrder (wrbEvents v a) :=
  (KeepsClockOrder.flatMap keepsClockOrder_writtenBit (bitsMSB v)).append
    ((keepsClockOrder_levelEvent true).append (keepsClockOrder_sampledBit a))

theorem keepsClockOrder_rdbEvents (bs : List Bool) (ack : Bool) : KeepsClockOrder (rdbEvents bs ack) := by
  rw [rdbEvents_eq_bits]
  exact (keepsClockOrder_levelEvent true).append ((KeepsClockOrder.flatMap keepsClockOrder_sampledBit bs).append
    ((keepsClockOrder_writtenBit (!ack)).append (keepsClockOrder_levelEvent true)))

/-- A written bit takes no sample, and its set-up wait follows its level. -/
theorem samplesSettled_writtenBit (ready : Option Bool) (b : Bool) (es : List Event) :
    samplesSettled ready (writtenBit b ++ es) = samplesSettled (if b then some true else none) es := by
  cases b <;> rfl

/-- With SDA released a sampled bit takes its sample after its set-up wait. -/
theorem samplesSettled_sampledBit (waited : Bool) (b : Bool) (es : List Event) :
    samplesSettled (some waited) (sampledBit b ++ es) = samplesSettled (some true) es := rfl

/-- Written bits take no sample. -/
theorem samplesSettled_writtenBits {es : List Event} (h : ∀ ready, samplesSettled ready es = true) (bs : List Bool)
    (ready : Option Bool) : samplesSettled ready (bs.flatMap writtenBit ++ es) = true := by
  induction bs generalizing ready with
  | nil => exact h ready
  | cons b bs ih =>
    rw [List.flatMap_cons, List.append_assoc, samplesSettled_writtenBit]
    exact ih _

/-- With SDA released sampled bits take their samples settled, and leave SDA released. -/
theorem samplesSettled_sampledBits {es : List Event} (h : ∀ waited, samplesSettled (some waited) es = true)
    (bs : List Bool) (waited : Bool) : samplesSettled (some waited) (bs.flatMap sampledBit ++ es) = true := by
  induction bs generalizing waited with
  | nil => exact h waited
  | cons b bs ih =>
    rw [List.flatMap_cons, List.append_assoc, samplesSettled_sampledBit]
    exact ih _

/-- A `WRB` samples once, in the pulse after its release of SDA (R182). -/
theorem samplesSettled_wrbEvents (v : Byte) (a : Bool) : samplesSettled none (wrbEvents v a) = true :=
  samplesSettled_writtenBits (fun _ => rfl) (bitsMSB v) none

/-- An `RDB` samples in the pulses after its release of SDA and before its acknowledge (R182). -/
theorem samplesSettled_rdbEvents (bs : List Bool) (ack : Bool) : samplesSettled none (rdbEvents bs ack) = true := by
  rw [rdbEvents_eq_bits]
  refine samplesSettled_sampledBits (fun waited => ?_) bs false
  rw [samplesSettled_writtenBit]
  rfl

/-- Settles O34: the clock order piece by piece, and the samples of each byte transfer. -/
theorem setupAndHoldOrderIsKept : Obligations.SetupAndHoldOrderIsKept := by
  rintro i s t (⟨v, rfl⟩ | ⟨ack, rfl⟩) hinit h <;> rw [newEvents_of_exec h hinit, eventsOf]
  · have order := keepsClockOrder_wrbEvents v (envDraw s.envAnswers (traceAtAck v s.trace))
    exact ⟨order.setup none, order.hold, samplesSettled_wrbEvents v _⟩
  · have order := keepsClockOrder_rdbEvents (drawnBits 8 s.envAnswers (s.trace ++ [.rel .sda])) ack
    exact ⟨order.setup none, order.hold, samplesSettled_rdbEvents _ ack⟩

/-! ### One thread per transaction -/

/-- Thread `t`, which holds the bus, issues the commands up to and including the next `STOP` (R185). -/
def HeldBy (t : Nat) (prog : List (Nat × Instr)) : Prop :=
  ∀ (mid post : List (Nat × Instr)) (u : Nat) (i : Instr),
    prog = mid ++ (u, i) :: post → (∀ q ∈ mid, q.2 ≠ .stop) → u = t

/-- After every opener its thread holds the bus (R185). -/
def OpenersHold (prog : List (Nat × Instr)) : Prop :=
  ∀ (pre post : List (Nat × Instr)) (t : Nat) (o : Instr),
    prog = pre ++ (t, o) :: post → opensTransaction o = true → HeldBy t post

theorem heldBy_nil (t : Nat) : HeldBy t [] := by
  intro mid post u i split
  simp at split

theorem openersHold_nil : OpenersHold [] := by
  intro pre post t o split
  simp at split

/-- The holder issues the first command, and unless that is `STOP` it holds the bus on. -/
theorem heldBy_cons (t u : Nat) (i : Instr) (is : List (Nat × Instr)) :
    HeldBy t ((u, i) :: is) ↔ t = u ∧ (i ≠ .stop → HeldBy t is) := by
  refine ⟨fun h => ⟨(h [] is u i rfl nofun).symm, fun go mid post v j split noStop => ?_⟩, ?_⟩
  · exact h ((u, i) :: mid) post v j (by rw [split, List.cons_append]) (List.forall_mem_cons.mpr ⟨go, noStop⟩)
  · rintro ⟨first, rest⟩ mid post v j split noStop
    cases mid with
    | nil => cases split; exact first.symm
    | cons q mid =>
      cases split
      obtain ⟨go, noStop⟩ := List.forall_mem_cons.mp noStop
      exact rest go mid post v j rfl noStop

/-- The first command's thread holds the bus if it opens a transaction, and so do the later openers' threads. -/
theorem openersHold_cons (u : Nat) (i : Instr) (is : List (Nat × Instr)) :
    OpenersHold ((u, i) :: is) ↔ (opensTransaction i = true → HeldBy u is) ∧ OpenersHold is := by
  refine ⟨fun h => ⟨h [] is u i rfl, fun pre post t o split => ?_⟩, ?_⟩
  · exact h ((u, i) :: pre) post t o (by rw [split, List.cons_append])
  · rintro ⟨first, rest⟩ pre post t o split opens
    cases pre with
    | nil => cases split; exact first opens
    | cons q pre =>
      cases split
      exact rest pre post t o rfl opens

/-- `serialized` asks that the present holder, if there is one, hold the bus, and every later opener's thread too: `STOP`
frees the bus, an opener hands it to its own thread, and any other command leaves it. -/
theorem serialized_iff (owner : Option Nat) (prog : List (Nat × Instr)) :
    serialized owner prog = true ↔ (∀ t, owner = some t → HeldBy t prog) ∧ OpenersHold prog := by
  induction prog generalizing owner with
  | nil => exact ⟨fun _ => ⟨fun t _ => heldBy_nil t, openersHold_nil⟩, fun _ => rfl⟩
  | cons q is ih =>
    obtain ⟨u, i⟩ := q
    rw [serialized, Bool.and_eq_true, Bool.or_eq_true, beq_iff_eq, beq_iff_eq, ih, openersHold_cons]
    by_cases stop : i = .stop
    case pos =>
      subst stop
      cases owner <;> simp +contextual [ownerAfter, opensTransaction, heldBy_cons]
    case neg =>
      by_cases opens : opensTransaction i = true
      case pos => cases owner <;> simp +contextual [ownerAfter, heldBy_cons, stop, opens]
      case neg => cases owner <;> simp +contextual [ownerAfter, heldBy_cons, stop, opens, and_assoc]

/-- The openers are `START` and `GCR`. -/
theorem opensTransaction_iff (i : Instr) : opensTransaction i = true ↔ i = .start ∨ i = .gcr := by
  cases i <;> simp [opensTransaction]

/-- From a free bus, `serialized` holds exactly when every command from an opener up to the next `STOP` is of its thread. -/
theorem serialized_none_iff (prog : List (Nat × Instr)) :
    serialized none prog = true ↔
      ∀ (pre mid post : List (Nat × Instr)) (t u : Nat) (o i : Instr),
        prog = pre ++ (t, o) :: mid ++ (u, i) :: post → o = .start ∨ o = .gcr → (∀ q ∈ mid, q.2 ≠ .stop) → u = t := by
  rw [serialized_iff]
  constructor
  · rintro ⟨-, holds⟩ pre mid post t u o i split opens
    exact holds pre (mid ++ (u, i) :: post) t o (by simp [split]) ((opensTransaction_iff o).mpr opens) mid post u i rfl
  · refine fun h => ⟨nofun, ?_⟩
    rintro pre _ t o split opens mid post u i rfl
    exact h pre mid post t u o i (by simp [split]) ((opensTransaction_iff o).mp opens)

/-- A program of one thread is serialized. -/
theorem serialized_of_one_thread (thread : Nat) (is : List Instr) :
    serialized none (is.map fun i => (thread, i)) = true := by
  refine (serialized_none_iff _).mpr fun pre mid post t u o i split _ _ => ?_
  have threads : ∀ q ∈ pre ++ (t, o) :: mid ++ (u, i) :: post, q.1 = thread := by
    rw [← split]
    simp
  exact (threads (u, i) (by simp)).trans (threads (t, o) (by simp)).symm

/-- On an initialised block, a command that ends without a fault is not `INIT` (R162). -/
theorem ne_init_of_fault_none {i : Instr} {s t : State} (hinit : s.init = true) (h : exec i s = .next t)
    (ht : t.fault = none) : i ≠ .init := by
  rintro rfl
  obtain ⟨hf, -⟩ := exec_next_cases h
  rw [exec_raises .init s hf (by simp [checkPasses, hinit])] at h
  cases h
  cases ht

/-- A command other than `INIT` opens and closes a transaction in the phase as it does in the holder (R24, R185). -/
theorem phaseAfter_active_iff {i : Instr} (hi : i ≠ .init) (thread : Nat) {p : Phase} {owner : Option Nat}
    (h : p = .active ↔ owner ≠ none) : phaseAfter p i = .active ↔ ownerAfter owner thread i ≠ none := by
  cases i with
  | init => exact absurd rfl hi
  | start => simp [phaseAfter, ownerAfter, opensTransaction]
  | gcr => simp [phaseAfter, ownerAfter, opensTransaction]
  | stop => simp [phaseAfter, ownerAfter, opensTransaction]
  | _ => exact h

/-- Settles O45: `serialized` by induction on the program with its holder, and the block's phase command by command. -/
theorem serializedIsOneThreadPerTransaction : Obligations.SerializedIsOneThreadPerTransaction := by
  refine ⟨serialized_none_iff, serialized_of_one_thread, fun owner thread i s t hinit h ht hphase => ?_⟩
  rw [(drv_phase_of_fault_none h ht).2]
  exact phaseAfter_active_iff (ne_init_of_fault_none hinit h ht) thread hphase

/-! ### The end of a read -/

/-- From `s` on to `t`, the last events are those of an `RDB` without acknowledge (R184). -/
def EndsUnacked (s t : State) : Prop :=
  ∃ (es : List Event) (bits : List Bool), bits.length = 8 ∧ t.trace = s.trace ++ es ++ rdbEvents bits false

/-- What ends so from a later state ends so from an earlier one. -/
theorem EndsUnacked.of_goesOn {s u t : State} (h : GoesOn s u) (hu : EndsUnacked u t) : EndsUnacked s t := by
  obtain ⟨earlier, hearlier⟩ := h.trace
  obtain ⟨es, bits, eight, htrace⟩ := hu
  exact ⟨earlier ++ es, bits, eight, by rw [htrace, ← hearlier]; simp only [List.append_assoc]⟩

/-- `RDWC NACK` ends with an `RDB` without acknowledge (R144). -/
theorem endsUnacked_rdwc {s t : State} {x : BitVec 16 × Byte} (hf : s.fault = none) (hinit : s.init = true)
    (h : rdwc false s = .next (x, t)) : EndsUnacked s t := by
  rw [rdwc_eq false hf hinit rfl rfl rfl rfl] at h
  cases h
  exact ⟨_, _, length_drawnBits .., congrArg (· ++ _) (List.append_assoc ..)⟩

/-- Under `readAll` every word is read, and where every word is read the last one with `NACK` (R184). -/
theorem readWords_last {p : ReadPolicy} {n : Nat} {e : Byte} {s t : State} {r : List (BitVec 16) × Byte}
    (hf : s.fault = none) (hinit : s.init = true) (h : readWords p n e s = .next (r, t)) :
    (p = .readAll → r.1.length = n + 1) ∧ (r.1.length = n + 1 → EndsUnacked s t) := by
  induction n generalizing e s r with
  | zero =>
    obtain ⟨x, u, hx, -⟩ := completes_rdwc false s hf hinit
    rw [readWords, hx, andThen_next] at h
    cases h
    exact ⟨fun _ => rfl, fun _ => endsUnacked_rdwc hf hinit hx⟩
  | succ n ih =>
    obtain ⟨x, u, hx, hu⟩ := completes_rdwc true s hf hinit
    rw [readWords, hx, andThen_next] at h
    split at h
    next =>
      obtain ⟨q, v, hq, -⟩ := completes_readWords p n (mergeErr e x.2) u hu.fault hu.init
      rw [hq, andThen_next] at h
      cases h
      obtain ⟨all, last⟩ := ih hu.fault hu.init hq
      exact ⟨fun hp => congrArg (· + 1) (all hp), fun count => (last (Nat.succ.inj count)).of_goesOn hu⟩
    next stopped =>
      cases h
      exact ⟨fun hp => absurd (.inr hp) stopped, fun count => absurd (Nat.succ.inj count) (Nat.succ_ne_zero n).symm⟩

/-- An operation reads no word, or its body ends in the reading of its words (R145). -/
theorem operationBody_reads {p : ReadPolicy} {addr : BitVec 7} {k : BitVec 16} {words : Nat} {s t : State}
    {r : List (BitVec 16) × Byte} (hf : s.fault = none) (hinit : s.init = true)
    (h : operationBody p addr k words s = .next (r, t)) :
    r.1 = [] ∨ ∃ n e u, words = n + 1 ∧ GoesOn s u ∧ readWords p n e u = .next (r, t) := by
  obtain ⟨e0, s0, h0, g0⟩ := completes_bwa addr s hf hinit
  obtain ⟨e1, s1, h1, g1⟩ := completes_scmd k s0 g0.fault g0.init
  obtain ⟨e2, s2, h2, g2⟩ := completes_bra addr s1 g1.fault g1.init
  simp only [operationBody, h0, h1, h2, andThen_next] at h
  split at h
  case isFalse => cases h; exact .inl rfl
  cases words with
  | zero => cases h; exact .inl rfl
  | succ n =>
    dsimp only at h
    split at h
    case isFalse => cases h; exact .inl rfl
    split at h
    case isFalse => cases h; exact .inl rfl
    exact .inr ⟨n, _, s2, rfl, g0.trans (g1.trans g2), h⟩

/-- Settles O58: the body reads no word or ends in `readWords`, and `ENDA` adds the events of `STOP`. -/
theorem completedReadsEndUnacknowledged : Obligations.CompletedReadsEndUnacknowledged := by
  intro p addr k words s hf hinit
  obtain ⟨r, t, hbody, ht⟩ := completes_operationBody p addr k words s hf hinit
  refine ⟨r, _, operation_of_body hbody ht.fault ht.init, ?_⟩
  obtain noWord | ⟨n, e, u, rfl, hu, hreads⟩ := operationBody_reads hf hinit hbody
  · exact ⟨fun _ => .inl noWord, fun pos count => absurd count (by rw [noWord]; exact pos.ne)⟩
  · obtain ⟨all, last⟩ := readWords_last hu.fault hu.init hreads
    refine ⟨fun hp => .inr (all hp), fun _ count => ?_⟩
    obtain ⟨es, bits, eight, htrace⟩ := (last count).of_goesOn hu
    exact ⟨es, bits, eight, congrArg (· ++ stopEvents) htrace⟩

end Sys2Proof.Machine
end
